-- ==== Sys2Proof/Word.lean ====
section
/-! DEFINITION. The widths of the spec (00_scope.md R6, R7): every register value is an unsigned bit vector
of a stated width, and all arithmetic on one wraps modulo 2^width. -/

namespace Sys2Proof

/-- `u8`: a general register, a timer, a byte of memory, an immediate `nn`. -/
abbrev Byte := BitVec 8

/-- `u16`: `PC`, `I`, a stack entry, an opcode word. -/
abbrev Word := BitVec 16

/-- `u12`: the address field `nnn` of an opcode (30_encoding.md R42). -/
abbrev Addr12 := BitVec 12

/-- `u4`: the field `n` of an opcode (30_encoding.md R42). -/
abbrev Nibble := BitVec 4

/-- The number of a general register, V0..VF: a 4-bit field of the opcode (10_state.md R14). -/
abbrev Reg := BitVec 4

/-- The number of a key, 0x0..0xF: 4 bits, so that every value names a key (60_exceptions.md R104). -/
abbrev Key := BitVec 4

end Sys2Proof
end

