-- ==== Sys2Proof/Syntax.lean ====
section
/-! DEFINITION. The 34 instructions of the base set (30_encoding.md R45), one constructor per row of
spec/opcode_table.json, in the table's order. The arguments are the row's fields, the ignored ones too (`n` of
5XYN and 9XYN, `y` of 8XY6 and 8XYE), so that an instruction determines its word. -/

namespace Sys2Proof

/-- An instruction of the base set. Every term is one: the types carry the fields' widths (R42). -/
inductive Instr where
  /-- `00E0` CLS (R55). -/
  | cls
  /-- `00EE` RET (R58). -/
  | ret
  /-- `1NNN` JP nnn (R59). -/
  | jpNnn (nnn : Addr12)
  /-- `2NNN` CALL nnn (R60). -/
  | callNnn (nnn : Addr12)
  /-- `3XNN` SE Vx, nn (R61). -/
  | seVxNn (x : Reg) (nn : Byte)
  /-- `4XNN` SNE Vx, nn (R62). -/
  | sneVxNn (x : Reg) (nn : Byte)
  /-- `5XYN` SE Vx, Vy; `n` is ignored (R63). -/
  | seVxVy (x y : Reg) (n : Nibble)
  /-- `6XNN` LD Vx, nn (R68). -/
  | ldVxNn (x : Reg) (nn : Byte)
  /-- `7XNN` ADD Vx, nn (R69). -/
  | addVxNn (x : Reg) (nn : Byte)
  /-- `8XY0` LD Vx, Vy (R70). -/
  | ldVxVy (x y : Reg)
  /-- `8XY1` OR Vx, Vy (R71). -/
  | orVxVy (x y : Reg)
  /-- `8XY2` AND Vx, Vy (R72). -/
  | andVxVy (x y : Reg)
  /-- `8XY3` XOR Vx, Vy (R73). -/
  | xorVxVy (x y : Reg)
  /-- `8XY4` ADD Vx, Vy (R74). -/
  | addVxVy (x y : Reg)
  /-- `8XY5` SUB Vx, Vy (R75). -/
  | subVxVy (x y : Reg)
  /-- `8XY6` SHR Vx; `y` is ignored (R76). -/
  | shrVx (x y : Reg)
  /-- `8XY7` SUBN Vx, Vy (R77). -/
  | subnVxVy (x y : Reg)
  /-- `8XYE` SHL Vx; `y` is ignored (R78). -/
  | shlVx (x y : Reg)
  /-- `9XYN` SNE Vx, Vy; `n` is ignored (R64). -/
  | sneVxVy (x y : Reg) (n : Nibble)
  /-- `ANNN` LD I, nnn (R81). -/
  | ldINnn (nnn : Addr12)
  /-- `BNNN` JP V0, nnn (R65). -/
  | jpV0Nnn (nnn : Addr12)
  /-- `CXNN` RND Vx, nn (R79). -/
  | rndVxNn (x : Reg) (nn : Byte)
  /-- `DXYN` DRW Vx, Vy, n (R56). -/
  | drwVxVyN (x y : Reg) (n : Nibble)
  /-- `EX9E` SKP Vx (R87). -/
  | skpVx (x : Reg)
  /-- `EXA1` SKNP Vx (R88). -/
  | sknpVx (x : Reg)
  /-- `FX07` LD Vx, DT (R89). -/
  | ldVxDt (x : Reg)
  /-- `FX0A` LD Vx, K (R92). -/
  | ldVxK (x : Reg)
  /-- `FX15` LD DT, Vx (R90). -/
  | ldDtVx (x : Reg)
  /-- `FX18` LD ST, Vx (R91). -/
  | ldStVx (x : Reg)
  /-- `FX1E` ADD I, Vx (R82). -/
  | addIVx (x : Reg)
  /-- `FX29` LD F, Vx (R83). -/
  | ldFVx (x : Reg)
  /-- `FX33` LD B, Vx (R84). -/
  | ldBVx (x : Reg)
  /-- `FX55` LD [I], Vx (R85). -/
  | ldMemVx (x : Reg)
  /-- `FX65` LD Vx, [I] (R86). -/
  | ldVxMem (x : Reg)
  deriving DecidableEq, Repr

end Sys2Proof
end

