-- ==== Sys2Proof/WellFormed.lean ====
section
/-! DEFINITION. Which words are instructions: the opcode map of 30_encoding.md R45, as the list of rows the spec
prints (mask, match, mnemonic), kept apart from the decoder of R44 so that the two can be compared.
A term of `Instr` is an instruction whatever its fields are, because their types carry the widths (R42);
what can be ill formed is a WORD (R46), and what an assembler writes is narrower than what executes (R48). -/

namespace Sys2Proof

/-- One row of the opcode map (30_encoding.md R45). -/
structure OpcodeRow where
  /-- The bits that select the instruction. -/
  mask : Word
  /-- What those bits are. -/
  bits : Word
  /-- The row's mnemonic in spec/opcode_table.json. -/
  mnemonic : String
  deriving DecidableEq, Repr

/-- The word `w` is one of the row's (R45): its fixed bits are the row's. -/
def OpcodeRow.covers (row : OpcodeRow) (w : Word) : Bool :=
  w &&& row.mask == row.bits

/-- Rows of R45, families 0 to 7. -/
def opcodeMap.rows0to7 : List OpcodeRow :=
  [
    ⟨0xFFFF#16, 0x00E0#16, "CLS"⟩,
    ⟨0xFFFF#16, 0x00EE#16, "RET"⟩,
    ⟨0xF000#16, 0x1000#16, "JP_nnn"⟩,
    ⟨0xF000#16, 0x2000#16, "CALL_nnn"⟩,
    ⟨0xF000#16, 0x3000#16, "SE_Vx__nn"⟩,
    ⟨0xF000#16, 0x4000#16, "SNE_Vx__nn"⟩,
    ⟨0xF000#16, 0x5000#16, "SE_Vx__Vy"⟩,
    ⟨0xF000#16, 0x6000#16, "LD_Vx__nn"⟩,
    ⟨0xF000#16, 0x7000#16, "ADD_Vx__nn"⟩ ]

/-- Rows of R45, families 8. -/
def opcodeMap.rows8 : List OpcodeRow :=
  [
    ⟨0xF00F#16, 0x8000#16, "LD_Vx__Vy"⟩,
    ⟨0xF00F#16, 0x8001#16, "OR_Vx__Vy"⟩,
    ⟨0xF00F#16, 0x8002#16, "AND_Vx__Vy"⟩,
    ⟨0xF00F#16, 0x8003#16, "XOR_Vx__Vy"⟩,
    ⟨0xF00F#16, 0x8004#16, "ADD_Vx__Vy"⟩,
    ⟨0xF00F#16, 0x8005#16, "SUB_Vx__Vy"⟩,
    ⟨0xF00F#16, 0x8006#16, "SHR_Vx"⟩,
    ⟨0xF00F#16, 0x8007#16, "SUBN_Vx__Vy"⟩,
    ⟨0xF00F#16, 0x800E#16, "SHL_Vx"⟩ ]

/-- Rows of R45, families 9 to D. -/
def opcodeMap.rows9toD : List OpcodeRow :=
  [
    ⟨0xF000#16, 0x9000#16, "SNE_Vx__Vy"⟩,
    ⟨0xF000#16, 0xA000#16, "LD_I__nnn"⟩,
    ⟨0xF000#16, 0xB000#16, "JP_V0__nnn"⟩,
    ⟨0xF000#16, 0xC000#16, "RND_Vx__nn"⟩,
    ⟨0xF000#16, 0xD000#16, "DRW_Vx__Vy__n"⟩ ]

/-- Rows of R45, families E. -/
def opcodeMap.rowsE : List OpcodeRow :=
  [
    ⟨0xF0FF#16, 0xE09E#16, "SKP_Vx"⟩,
    ⟨0xF0FF#16, 0xE0A1#16, "SKNP_Vx"⟩ ]

/-- Rows of R45, families F. -/
def opcodeMap.rowsF : List OpcodeRow :=
  [
    ⟨0xF0FF#16, 0xF007#16, "LD_Vx__DT"⟩,
    ⟨0xF0FF#16, 0xF00A#16, "LD_Vx__K"⟩,
    ⟨0xF0FF#16, 0xF015#16, "LD_DT__Vx"⟩,
    ⟨0xF0FF#16, 0xF018#16, "LD_ST__Vx"⟩,
    ⟨0xF0FF#16, 0xF01E#16, "ADD_I__Vx"⟩,
    ⟨0xF0FF#16, 0xF029#16, "LD_F__Vx"⟩,
    ⟨0xF0FF#16, 0xF033#16, "LD_B__Vx"⟩,
    ⟨0xF0FF#16, 0xF055#16, "LD__I___Vx"⟩,
    ⟨0xF0FF#16, 0xF065#16, "LD_Vx___I"⟩ ]

/-- The opcode map of 30_encoding.md R45: 34 rows. -/
def opcodeMap : List OpcodeRow :=
  opcodeMap.rows0to7 ++ opcodeMap.rows8 ++ opcodeMap.rows9toD ++ opcodeMap.rowsE ++ opcodeMap.rowsF

/-- A word is well formed when some row of the map covers it; every other word is `Unknown` (R46). -/
def wellFormedWord (w : Word) : Bool :=
  opcodeMap.any (·.covers w)

/-- The mnemonic of the instruction's row in spec/opcode_table.json. -/
def Instr.mnemonic : Instr → String
  | .cls => "CLS"
  | .ret => "RET"
  | .jpNnn _ => "JP_nnn"
  | .callNnn _ => "CALL_nnn"
  | .seVxNn _ _ => "SE_Vx__nn"
  | .sneVxNn _ _ => "SNE_Vx__nn"
  | .seVxVy _ _ _ => "SE_Vx__Vy"
  | .ldVxNn _ _ => "LD_Vx__nn"
  | .addVxNn _ _ => "ADD_Vx__nn"
  | .ldVxVy _ _ => "LD_Vx__Vy"
  | .orVxVy _ _ => "OR_Vx__Vy"
  | .andVxVy _ _ => "AND_Vx__Vy"
  | .xorVxVy _ _ => "XOR_Vx__Vy"
  | .addVxVy _ _ => "ADD_Vx__Vy"
  | .subVxVy _ _ => "SUB_Vx__Vy"
  | .shrVx _ _ => "SHR_Vx"
  | .subnVxVy _ _ => "SUBN_Vx__Vy"
  | .shlVx _ _ => "SHL_Vx"
  | .sneVxVy _ _ _ => "SNE_Vx__Vy"
  | .ldINnn _ => "LD_I__nnn"
  | .jpV0Nnn _ => "JP_V0__nnn"
  | .rndVxNn _ _ => "RND_Vx__nn"
  | .drwVxVyN _ _ _ => "DRW_Vx__Vy__n"
  | .skpVx _ => "SKP_Vx"
  | .sknpVx _ => "SKNP_Vx"
  | .ldVxDt _ => "LD_Vx__DT"
  | .ldVxK _ => "LD_Vx__K"
  | .ldDtVx _ => "LD_DT__Vx"
  | .ldStVx _ => "LD_ST__Vx"
  | .addIVx _ => "ADD_I__Vx"
  | .ldFVx _ => "LD_F__Vx"
  | .ldBVx _ => "LD_B__Vx"
  | .ldMemVx _ => "LD__I___Vx"
  | .ldVxMem _ => "LD_Vx___I"

/-- The form an assembler writes (30_encoding.md R48): "`5XYN` and `9XYN` are assembled with `N = 0`". The core
executes the other forms too, with the same meaning (R44), so nothing of the machine asks for this check. -/
def Instr.assembled : Instr → Bool
  | .seVxVy _ _ n => n == 0
  | .sneVxVy _ _ n => n == 0
  | .cls | .ret | .jpNnn _ | .callNnn _ | .seVxNn _ _ | .sneVxNn _ _ | .ldVxNn _ _ | .addVxNn _ _
  | .ldVxVy _ _ | .orVxVy _ _ | .andVxVy _ _ | .xorVxVy _ _ | .addVxVy _ _ | .subVxVy _ _
  | .shrVx _ _ | .subnVxVy _ _ | .shlVx _ _ | .ldINnn _ | .jpV0Nnn _ | .rndVxNn _ _
  | .drwVxVyN _ _ _ | .skpVx _ | .sknpVx _ | .ldVxDt _ | .ldVxK _ | .ldDtVx _ | .ldStVx _
  | .addIVx _ | .ldFVx _ | .ldBVx _ | .ldMemVx _ | .ldVxMem _ => true

end Sys2Proof
end

