-- ==== Sys2Proof/Decode.lean ====
section
/-! DEFINITION. The decoder of 30_encoding.md R44, total on every word and on any list of bytes, and after it the
encoder, written from the patterns of R45. -/

namespace Sys2Proof

/-- Why bytes are not an instruction. -/
inductive DecodeError where
  /-- Fewer than the two bytes of R41 were given. The core never meets it: its fetch reads two bytes. -/
  | truncated
  /-- The word `w` matches no row of R45 (30_encoding.md R46). -/
  | unknownOpcode (w : Word)
  deriving DecidableEq, Repr

/-- `op = w[15:12]` (30_encoding.md R42). -/
def fieldOp (w : Word) : Nibble := w.extractLsb' 12 4
/-- `x = w[11:8]` (R42). -/
def fieldX (w : Word) : Reg := w.extractLsb' 8 4
/-- `y = w[7:4]` (R42). -/
def fieldY (w : Word) : Reg := w.extractLsb' 4 4
/-- `n = w[3:0]` (R42). -/
def fieldN (w : Word) : Nibble := w.extractLsb' 0 4
/-- `nn = w[7:0]` (R42). -/
def fieldNn (w : Word) : Byte := w.extractLsb' 0 8
/-- `nnn = w[11:0]` (R42). -/
def fieldNnn (w : Word) : Addr12 := w.extractLsb' 0 12

/-- Family 0x0 (R44): two whole words, the rest `Unknown`. -/
def decodeFamily0 (w : Word) : Except DecodeError Instr :=
  if w = 0x00E0 then .ok .cls
  else if w = 0x00EE then .ok .ret
  else .error (.unknownOpcode w)

/-- Family 0x8 (R44): selected by the low nibble. -/
def decodeFamily8 (w : Word) : Except DecodeError Instr :=
  match fieldN w with
  | 0x0#4 => .ok (.ldVxVy (fieldX w) (fieldY w))
  | 0x1#4 => .ok (.orVxVy (fieldX w) (fieldY w))
  | 0x2#4 => .ok (.andVxVy (fieldX w) (fieldY w))
  | 0x3#4 => .ok (.xorVxVy (fieldX w) (fieldY w))
  | 0x4#4 => .ok (.addVxVy (fieldX w) (fieldY w))
  | 0x5#4 => .ok (.subVxVy (fieldX w) (fieldY w))
  | 0x6#4 => .ok (.shrVx (fieldX w) (fieldY w))
  | 0x7#4 => .ok (.subnVxVy (fieldX w) (fieldY w))
  | 0xE#4 => .ok (.shlVx (fieldX w) (fieldY w))
  | _ => .error (.unknownOpcode w)

/-- Family 0xE (R44): selected by the low byte. -/
def decodeFamilyE (w : Word) : Except DecodeError Instr :=
  match fieldNn w with
  | 0x9E#8 => .ok (.skpVx (fieldX w))
  | 0xA1#8 => .ok (.sknpVx (fieldX w))
  | _ => .error (.unknownOpcode w)

/-- Family 0xF (R44): selected by the low byte. -/
def decodeFamilyF (w : Word) : Except DecodeError Instr :=
  match fieldNn w with
  | 0x07#8 => .ok (.ldVxDt (fieldX w))
  | 0x0A#8 => .ok (.ldVxK (fieldX w))
  | 0x15#8 => .ok (.ldDtVx (fieldX w))
  | 0x18#8 => .ok (.ldStVx (fieldX w))
  | 0x1E#8 => .ok (.addIVx (fieldX w))
  | 0x29#8 => .ok (.ldFVx (fieldX w))
  | 0x33#8 => .ok (.ldBVx (fieldX w))
  | 0x55#8 => .ok (.ldMemVx (fieldX w))
  | 0x65#8 => .ok (.ldVxMem (fieldX w))
  | _ => .error (.unknownOpcode w)

/-- `decode(w)` of 30_encoding.md R44: by the high nibble, and in families 0x0, 0x8, 0xE, 0xF further. -/
def decode (w : Word) : Except DecodeError Instr :=
  match fieldOp w with
  | 0x0#4 => decodeFamily0 w
  | 0x1#4 => .ok (.jpNnn (fieldNnn w))
  | 0x2#4 => .ok (.callNnn (fieldNnn w))
  | 0x3#4 => .ok (.seVxNn (fieldX w) (fieldNn w))
  | 0x4#4 => .ok (.sneVxNn (fieldX w) (fieldNn w))
  | 0x5#4 => .ok (.seVxVy (fieldX w) (fieldY w) (fieldN w))
  | 0x6#4 => .ok (.ldVxNn (fieldX w) (fieldNn w))
  | 0x7#4 => .ok (.addVxNn (fieldX w) (fieldNn w))
  | 0x8#4 => decodeFamily8 w
  | 0x9#4 => .ok (.sneVxVy (fieldX w) (fieldY w) (fieldN w))
  | 0xA#4 => .ok (.ldINnn (fieldNnn w))
  | 0xB#4 => .ok (.jpV0Nnn (fieldNnn w))
  | 0xC#4 => .ok (.rndVxNn (fieldX w) (fieldNn w))
  | 0xD#4 => .ok (.drwVxVyN (fieldX w) (fieldY w) (fieldN w))
  | 0xE#4 => decodeFamilyE w
  | _ => decodeFamilyF w

/-- Two bytes as an opcode word: the byte at the lower address is the high one (20_memory.md R35). -/
def wordOfBytes (hi lo : Byte) : Word := hi ++ lo

/-- The two bytes of an opcode word, lowest address first (20_memory.md R35). -/
def bytesOfWord (w : Word) : List Byte := [w.extractLsb' 8 8, w.extractLsb' 0 8]

/-- The decoder on any bytes: always two are consumed (30_encoding.md R41). -/
def decodeBytes : List Byte → Except DecodeError (Instr × List Byte)
  | hi :: lo :: rest =>
    match decode (wordOfBytes hi lo) with
    | .ok i => .ok (i, rest)
    | .error e => .error e
  | [_] => .error .truncated
  | [] => .error .truncated

/-! ### The encoder, from the patterns of R45 -/

/-- A pattern `OXYN`. -/
def wordOXYN (op : Nibble) (x y : Reg) (n : Nibble) : Word := op ++ x ++ y ++ n
/-- A pattern `OXNN`. -/
def wordOXNN (op : Nibble) (x : Reg) (nn : Byte) : Word := op ++ x ++ nn
/-- A pattern `ONNN`. -/
def wordONNN (op : Nibble) (nnn : Addr12) : Word := op ++ nnn

/-- The word of an instruction (30_encoding.md R45, column "pattern"). -/
def encode : Instr → Word
  | .cls => 0x00E0
  | .ret => 0x00EE
  | .jpNnn nnn => wordONNN 0x1 nnn
  | .callNnn nnn => wordONNN 0x2 nnn
  | .seVxNn x nn => wordOXNN 0x3 x nn
  | .sneVxNn x nn => wordOXNN 0x4 x nn
  | .seVxVy x y n => wordOXYN 0x5 x y n
  | .ldVxNn x nn => wordOXNN 0x6 x nn
  | .addVxNn x nn => wordOXNN 0x7 x nn
  | .ldVxVy x y => wordOXYN 0x8 x y 0x0
  | .orVxVy x y => wordOXYN 0x8 x y 0x1
  | .andVxVy x y => wordOXYN 0x8 x y 0x2
  | .xorVxVy x y => wordOXYN 0x8 x y 0x3
  | .addVxVy x y => wordOXYN 0x8 x y 0x4
  | .subVxVy x y => wordOXYN 0x8 x y 0x5
  | .shrVx x y => wordOXYN 0x8 x y 0x6
  | .subnVxVy x y => wordOXYN 0x8 x y 0x7
  | .shlVx x y => wordOXYN 0x8 x y 0xE
  | .sneVxVy x y n => wordOXYN 0x9 x y n
  | .ldINnn nnn => wordONNN 0xA nnn
  | .jpV0Nnn nnn => wordONNN 0xB nnn
  | .rndVxNn x nn => wordOXNN 0xC x nn
  | .drwVxVyN x y n => wordOXYN 0xD x y n
  | .skpVx x => wordOXNN 0xE x 0x9E
  | .sknpVx x => wordOXNN 0xE x 0xA1
  | .ldVxDt x => wordOXNN 0xF x 0x07
  | .ldVxK x => wordOXNN 0xF x 0x0A
  | .ldDtVx x => wordOXNN 0xF x 0x15
  | .ldStVx x => wordOXNN 0xF x 0x18
  | .addIVx x => wordOXNN 0xF x 0x1E
  | .ldFVx x => wordOXNN 0xF x 0x29
  | .ldBVx x => wordOXNN 0xF x 0x33
  | .ldMemVx x => wordOXNN 0xF x 0x55
  | .ldVxMem x => wordOXNN 0xF x 0x65

/-! ### The table's bits -/

/-- The opcode word whose bits are the low `nbits` of `w`, as spec/opcode_table.json numbers them (bit 0 the least
significant of the one 16-bit word); every bit above is 0. -/
def tableWord (nbits w : Nat) : Word := BitVec.ofNat 16 (w % 2 ^ nbits)

/-- The instruction the decoder reads from those bits, laid out in memory order and decoded as bytes. -/
def decodeTableWord (nbits w : Nat) : Option Instr :=
  match decodeBytes (bytesOfWord (tableWord nbits w)) with
  | .ok (i, _) => some i
  | .error _ => none

end Sys2Proof
end

