-- ==== Sys2Proof/Config.lean ====
section
/-! DEFINITION. The parameters of the core that no instruction can show otherwise (00_scope.md R5), and the
one free value: the random draw of a `CYCLE`. The font's place and bytes are in Machine/Font.lean. -/

namespace Sys2Proof

/-- `MEM_SIZE` (R5): the addresses are 0x000 to 0xFFF. -/
def Config.memSize : Nat := 0x1000

/-- `PROG_BASE` (R5): where the image is loaded and where `PC` starts. -/
def Config.progBase : Nat := 0x200

/-- `MAX_IMAGE` (R5): 3584 bytes. -/
def Config.maxImage : Nat := Config.memSize - Config.progBase

/-- The draws of the `CYCLE`s whose `r` the host has not named: the k-th is `Config.draw k`.
40_cycle.md R52: `r` is "any 8-bit value, chosen by the environment and constrained by no law".
DESIGN CHOICE, log entry 2: a FREE VALUE. It has no body, so nothing can be proved of its values. -/
opaque Config.draw : Nat → Byte

end Sys2Proof
end

