-- ==== Sys2Proof/Machine/Font.lean ====
section
/-! DEFINITION. The font: where it lies and its 80 bytes (10_state.md R13; 00_scope.md R5, `FONT_BASE` and `FONT`).
Both are decisions of the spec itself (92_eei_decisions.md D1, D2; log entry 5). -/

namespace Sys2Proof.Machine

/-- `FONT_BASE` (R5, D1). -/
def fontBase : Nat := 0x050

/-- Glyphs 0 to 3 (R13), row 0 first. -/
def fontGlyphs0to3 : List Byte :=
  [0xF0, 0x90, 0x90, 0x90, 0xF0] ++ [0x20, 0x60, 0x20, 0x20, 0x70] ++
  [0xF0, 0x10, 0xF0, 0x80, 0xF0] ++ [0xF0, 0x10, 0xF0, 0x10, 0xF0]

/-- Glyphs 4 to 7 (R13). -/
def fontGlyphs4to7 : List Byte :=
  [0x90, 0x90, 0xF0, 0x10, 0x10] ++ [0xF0, 0x80, 0xF0, 0x10, 0xF0] ++
  [0xF0, 0x80, 0xF0, 0x90, 0xF0] ++ [0xF0, 0x10, 0x20, 0x40, 0x40]

/-- Glyphs 8 to B (R13). -/
def fontGlyphs8toB : List Byte :=
  [0xF0, 0x90, 0xF0, 0x90, 0xF0] ++ [0xF0, 0x90, 0xF0, 0x10, 0xF0] ++
  [0xF0, 0x90, 0xF0, 0x90, 0x90] ++ [0xE0, 0x90, 0xE0, 0x90, 0xE0]

/-- Glyphs C to F (R13). -/
def fontGlyphsCtoF : List Byte :=
  [0xF0, 0x80, 0x80, 0x80, 0xF0] ++ [0xE0, 0x90, 0x90, 0x90, 0xE0] ++
  [0xF0, 0x80, 0xF0, 0x80, 0xF0] ++ [0xF0, 0x80, 0xF0, 0x80, 0x80]

/-- `FONT`, the 80 bytes (R13). -/
def font : List Byte := fontGlyphs0to3 ++ fontGlyphs4to7 ++ fontGlyphs8toB ++ fontGlyphsCtoF

/-- What `RESET` leaves at address `a`: the font at `FONT_BASE .. FONT_BASE+79`, 0x00 elsewhere
(10_state.md R28, 70_reset_and_hazards.md R111). It is what an unlisted address of `mem` reads as. -/
def resetByte (a : Nat) : Byte :=
  if fontBase ≤ a then font.getD (a - fontBase) 0 else 0

end Sys2Proof.Machine
end

