-- ==== Sys2Proof/Machine/State.lean ====
section
/-! DEFINITION. The machine's state as plain data (10_state.md), the results a command returns (00_scope.md R4,
60_exceptions.md R94), the reasons a step can stop, and the state at construction (70_reset_and_hazards.md R112). -/

namespace Sys2Proof.Machine

/-- `MEM` (10_state.md R12): the bytes that differ from the reset contents, as (address, byte) pairs. The form every
operation keeps is `Memory.wf` (Machine/Ops.lean): addresses strictly rising and below 0x1000, and no entry equal to
what an unlisted address reads as. -/
abbrev Memory := List Host.Cell

/-- `FB[row][col]` (10_state.md R22): 32 rows counted downward, 64 columns counted rightward, one bit each. -/
abbrev FrameBuffer := Vector (Vector Bool 64) 32

/-- What a command returns to the host (00_scope.md R4, 40_cycle.md R51, 60_exceptions.md R94). -/
inductive Result where
  /-- A cycle executed an instruction or completed a key-wait; or a `LOAD` was accepted. Code 0. -/
  | ok
  /-- FX0A began a wait, or a poll found no key edge. Code 1. -/
  | awaiting
  /-- A fetch or a data access was out of bounds; `addr` is the first out-of-bounds address. Code 2. -/
  | invalidMemoryAccess (pc : Word) (addr : Nat)
  /-- 2NNN at `SP = 16`. Code 3. -/
  | stackOverflow (pc : Word)
  /-- 00EE at `SP = 0`. Code 4. -/
  | stackUnderflow (pc : Word)
  /-- The fetched word matches no instruction. Code 5. -/
  | unknownOpcode (pc : Word) (opcode : Word)
  /-- `LOAD` only: the image is longer than 3584 bytes. Code 6. -/
  | imageTooLarge (len : Nat)
  /-- What `TICK` returns: whether the tone sounds for this tick (60_exceptions.md R100). -/
  | tone (sounding : Bool)
  deriving DecidableEq, Repr

/-- The five commands of the host (00_scope.md R4). -/
inductive Command where
  /-- `RESET` (70_reset_and_hazards.md R111). -/
  | reset
  /-- `LOAD(image)` (70_reset_and_hazards.md R113). -/
  | load (image : List Byte)
  /-- `CYCLE(r)` with the host's draw `r` (40_cycle.md R49). -/
  | cycle (r : Byte)
  /-- `TICK` (60_exceptions.md R100). -/
  | tick
  /-- `SET_KEY(k, p)` (60_exceptions.md R104). -/
  | setKey (k : Key) (p : Bool)
  deriving DecidableEq, Repr

/-- The machine. The first twelve fields are the spec's (10_state.md, section 1); the last four are the model's own:
the output and input ports of the command interface (log entries 2, 3 and 4). -/
structure State where
  /-- `MEM` (R12). -/
  mem : Memory
  /-- `V[0..15]` (R14); `V[15]` is also the flag register VF (R15). -/
  v : Vector Byte 16
  /-- `I`, the index register (R16). -/
  i : Word
  /-- `PC` (R17). -/
  pc : Word
  /-- `STACK[0..15]` (R18). -/
  stack : Vector Word 16
  /-- `SP`, 0 to 16 inclusive (R19). -/
  sp : Fin 17
  /-- `DT`, the delay timer (R20). -/
  dt : Byte
  /-- `ST`, the sound timer (R21). -/
  st : Byte
  /-- `FB` (R22). -/
  fb : FrameBuffer
  /-- `KEYS[0..15]`, `true` meaning pressed (R23). -/
  keys : Vector Bool 16
  /-- `WAIT`: `none`, or `some x` for `Awaiting(x)` (R24). -/
  wait : Option Reg
  /-- `EDGE`: `none`, or `some k` for `Some(k)` (R25). -/
  edge : Option Key
  /-- The model's own: what the last command returned; `none` after a command that returns nothing. -/
  result : Option Result
  /-- The model's own: the input `r` of the current `CYCLE` (40_cycle.md R52). -/
  draw : Byte
  /-- The model's own: how many free draws have been taken; the next is `Config.draw draws`. -/
  draws : Nat
  /-- The model's own: the commands the host has issued and the core has not yet performed, oldest first. -/
  pending : List Command
  deriving DecidableEq, Repr

/-- The reasons the machine can stop with a fault: NONE, so the type has no constructor. Every runtime error of the
spec is a condition, after which the core goes on (60_exceptions.md R95, R97: the engine "never aborts the process"),
and is modelled as a next state (log entry 1). -/
inductive Fault where
  deriving DecidableEq, Repr

/-- The reasons a step can be refused. -/
inductive Refusal where
  /-- Raised only by an arm of `exec` for an instruction without a meaning; there is none, so nothing raises it.
  Safe: it stops where the hardware goes on. -/
  | notModelled (mnemonic : String)
  deriving DecidableEq, Repr

/-- The state at construction, which is the state after `RESET` with `KEYS` all 0 (70_reset_and_hazards.md R112,
10_state.md R28): no listed memory (so the font and zeros), every register, timer, pixel and stack entry 0, `PC` at
0x200. The last four fields are the model's own, DESIGN CHOICE (log entry 4): unsafe only for a claim that reads
`draw` before a cycle has latched it, and none does. -/
def State.reset : State where
  mem := []
  v := Vector.replicate 16 0
  i := 0x0000
  pc := 0x0200
  stack := Vector.replicate 16 0
  sp := 0
  dt := 0
  st := 0
  fb := Vector.replicate 32 (Vector.replicate 64 false)
  keys := Vector.replicate 16 false
  wait := none
  edge := none
  result := none
  draw := 0
  draws := 0
  pending := []

end Sys2Proof.Machine
end

