-- ==== Sys2Proof/Machine/Ops.lean ====
section
/-! DEFINITION. The named operations every meaning is written over: registers (00_scope.md R8), memory (R9), the
stack (10_state.md R18), the frame buffer (10_state.md R22), the ways an instruction ends (40_cycle.md R54), and
raising a condition (00_scope.md R10), which is this machine's only exception. There is no return from one
(60_exceptions.md R97): the core goes on at `a + 2`. -/

namespace Sys2Proof.Machine

/-! ### General registers (00_scope.md R8, 10_state.md R14) -/

/-- `V[x]`. -/
def State.reg (s : State) (x : Reg) : Byte := s.v[x.toNat]'x.isLt

/-- `V[x] <- b`. -/
def State.setReg (s : State) (x : Reg) (b : Byte) : State :=
  { s with v := s.v.set x.toNat b x.isLt }

/-- VF, the flag register: `V[15]` (10_state.md R15). -/
def flagReg : Reg := 0xF

/-- `V[0..x]`, the `x + 1` values in register order (44_index_memory.md R85). -/
def State.regsUpTo (s : State) (x : Reg) : List Byte := s.v.toList.take (x.toNat + 1)

/-- `for i: V[k + i] <- bs[i]`, the writes in register order (44_index_memory.md R86). -/
def State.setRegsFrom (s : State) (k : Nat) : List Byte → State
  | [] => s
  | b :: bs => State.setRegsFrom (s.setReg (BitVec.ofNat 4 k) b) (k + 1) bs

/-! ### Memory (00_scope.md R9, 20_memory.md R29) -/

/-- The canonical form of `mem`: addresses strictly rising from `lo`, all below 0x1000, no entry equal to what an
unlisted address reads as. -/
def memWfFrom (lo : Nat) : Memory → Bool
  | [] => true
  | (a, b) :: rest => decide (lo ≤ a) && decide (a < Config.memSize) && b != resetByte a && memWfFrom (a + 1) rest

/-- The canonical form of the whole memory. -/
def Memory.wf (m : Memory) : Bool := memWfFrom 0 m

/-- The byte at `a`: the listed one, else the reset contents. -/
def memGet : Memory → Nat → Byte
  | [], a => resetByte a
  | (a', b') :: rest, a => if a = a' then b' else memGet rest a

/-- The memory with the byte at `a` set to `b`, in the canonical form. -/
def memPut : Memory → Nat → Byte → Memory
  | [], a, b => if b = resetByte a then [] else [(a, b)]
  | (a', b') :: rest, a, b =>
    if a < a' then (if b = resetByte a then (a', b') :: rest else (a, b) :: (a', b') :: rest)
    else if a = a' then (if b = resetByte a then rest else (a, b) :: rest)
    else (a', b') :: memPut rest a b

/-- `MemRead(a, 1)` (R9): the byte, or `none` where the address does not exist (`a >= 0x1000`). -/
def State.memRead (s : State) (a : Nat) : Option Byte :=
  if a < Config.memSize then some (memGet s.mem a) else none

/-- The bytes `MEM[base .. base+n-1]`, after a bounds check (20_memory.md R32). -/
def State.readBlock (s : State) (base n : Nat) : List Byte :=
  (List.range n).map (fun k => memGet s.mem (base + k))

/-- `MemWrite(base + k, 1, bs[k])` for each k in order (R9). No caller reaches an address past the array, because
every access is checked whole before its first write (20_memory.md R33); such a byte would not exist. -/
def memPutBlock (m : Memory) (base : Nat) : List Byte → Memory
  | [] => m
  | b :: bs => memPutBlock (if base < Config.memSize then memPut m base b else m) (base + 1) bs

/-- The stores of one instruction. -/
def State.writeBlock (s : State) (base : Nat) (bs : List Byte) : State :=
  { s with mem := memPutBlock s.mem base bs }

/-! ### The stack (10_state.md R18, R19) -/

/-- `STACK[SP] <- w; SP <- SP + 1`, with room for it. -/
def State.push (s : State) (w : Word) (room : s.sp.val < 16) : State :=
  { s with stack := s.stack.set s.sp.val w room, sp := ⟨s.sp.val + 1, by omega⟩ }

/-- `STACK[SP - 1]`, the top of a stack that is not empty. -/
def State.top (s : State) (live : 0 < s.sp.val) : Word :=
  s.stack[s.sp.val - 1]'(by omega)

/-- `SP <- SP - 1`; the entry keeps its value (R18). -/
def State.drop (s : State) : State :=
  { s with sp := ⟨s.sp.val - 1, by omega⟩ }

/-! ### The frame buffer (10_state.md R22) -/

/-- Every pixel 0. -/
def clearFrame : FrameBuffer := Vector.replicate 32 (Vector.replicate 64 false)

/-- `FB[row][col]`. -/
def pixel (fb : FrameBuffer) (row : Fin 32) (col : Fin 64) : Bool := fb[row][col]

/-- `FB[row][col] <- FB[row][col] ^ 1`. -/
def flipPixel (fb : FrameBuffer) (row : Fin 32) (col : Fin 64) : FrameBuffer :=
  fb.set row ((fb[row]).set col (!(fb[row])[col]))

/-! ### The ways an instruction ends (40_cycle.md R51, R54) -/

/-- `PC <- target`, and the cycle returns `Ok`. -/
def jumpTo (target : Word) (s : State) : Host.Outcome State Fault Refusal :=
  .next { s with pc := target, result := some .ok }

/-- `PC <- a +_16 2`, and the cycle returns `Ok`. -/
def advance (s : State) : Host.Outcome State Fault Refusal :=
  jumpTo (s.pc + 2) s

/-- The conditional skip (42_control_flow.md): `PC <- cond ? a +_16 4 : a +_16 2`. -/
def skipIf (cond : Bool) (s : State) : Host.Outcome State Fault Refusal :=
  jumpTo (if cond then s.pc + 4 else s.pc + 2) s

/-- `raise C(info)` (00_scope.md R10, 60_exceptions.md R95): every state element as it was before the cycle, except
`PC <- a +_16 2`, and the condition returned. A NEXT state, not a fault (log entry 1). -/
def raise (c : Result) (s : State) : Host.Outcome State Fault Refusal :=
  .next { s with pc := s.pc + 2, result := some c }

/-! ### Fetching (40_cycle.md R49, R50) -/

/-- The fetch at `PC`: the word, high byte first, or the condition with the first out-of-bounds address. -/
def State.fetch (s : State) : Except Result Word :=
  if 0x0FFE < s.pc.toNat then
    .error (.invalidMemoryAccess s.pc (if 0x1000 ≤ s.pc.toNat then s.pc.toNat else s.pc.toNat + 1))
  else
    .ok (wordOfBytes (memGet s.mem s.pc.toNat) (memGet s.mem (s.pc.toNat + 1)))

/-- The state whose next step fetches `w`: no command of the host is pending, no key-wait, and the word lies at `PC`, in
memory order. Where `PC` is past the last fetchable address it is first set to `PROG_BASE`. -/
def State.placeWord (s : State) (w : Word) : State :=
  let pc : Word := if 0x0FFE < s.pc.toNat then BitVec.ofNat 16 Config.progBase else s.pc
  { s with pc := pc, wait := none, pending := [], mem := memPutBlock s.mem pc.toNat (bytesOfWord w) }

end Sys2Proof.Machine
end

