-- ==== Sys2Proof/Machine/Operands.lean ====
section
/-! DEFINITION. The operand forms (30_encoding.md R43, 44_index_memory.md R80): the immediates, the block of memory
an instruction reaches through `I`, the font address, the decimal digits, the key number, the sprite's pixels. -/

namespace Sys2Proof.Machine

/-- `zext_16(nnn)` (30_encoding.md R43). -/
def zext16 (nnn : Addr12) : Word := nnn.zeroExtend 16

/-- The one data addressing mode (44_index_memory.md R80): the `n` bytes from `I` up, without wrap. `true` when `n > 0`
and the last of them is past the array (20_memory.md R33; 41_display.md R56, 44_index_memory.md R84 to R86). -/
def State.blockOutOfBounds (s : State) (n : Nat) : Bool :=
  decide (0 < n) && decide (0x1000 ≤ s.i.toNat + n - 1)

/-- The condition of such an access: the first byte past the array (R56, R84, R85, R86). -/
def State.blockCondition (s : State) : Result := .invalidMemoryAccess s.pc 0x1000

/-- FX29's address: `FONT_BASE + 5 * (vx & 0x0F)` (44_index_memory.md R83, D10). -/
def glyphAddress (vx : Byte) : Word := BitVec.ofNat 16 (fontBase + 5 * (vx &&& 0x0F).toNat)

/-- FX33's digits: hundreds, tens, ones (44_index_memory.md R84, D12). -/
def bcdDigits (v : Byte) : List Byte := [v / 100, (v / 10) % 10, v % 10]

/-- FX1E's sum, masked to 12 bits (44_index_memory.md R82). -/
def indexSum (i : Word) (vx : Byte) : Word := (i + vx.zeroExtend 16) &&& 0x0FFF

/-- BNNN's target, a 16-bit sum without a mask (42_control_flow.md R65, D18). -/
def offsetTarget (nnn : Addr12) (v0 : Byte) : Word := zext16 nnn + v0.zeroExtend 16

/-- The key a key test names: the low nibble (45_keys_timers.md R87, D11). -/
def keyNumber (vx : Byte) : Key := vx.truncate 4

/-- `KEYS[k]` (10_state.md R23). -/
def State.keyPressed (s : State) (k : Key) : Bool := s.keys[k.toNat]'k.isLt

/-- The row a sprite byte is drawn on: `(cy + r) mod 32` (41_display.md R56, D5). -/
def spriteRow (cy : Byte) (r : Nat) : Fin 32 := Fin.ofNat 32 (cy.toNat + r)

/-- The column a sprite bit is drawn on: `(cx + c) mod 64` (41_display.md R56, D5). -/
def spriteCol (cx : Byte) (c : Nat) : Fin 64 := Fin.ofNat 64 (cx.toNat + c)

/-- The bit of a sprite byte that column `c` of the sprite shows: bit `7 - c`, bit 7 leftmost (R56, D3). -/
def spriteBit (sprite : Byte) (c : Nat) : Bool := sprite.getLsbD (7 - c)

end Sys2Proof.Machine
end

