-- ==== Sys2Proof/Machine/Commands.lean ====
section
/-! DEFINITION. The host's commands other than `CYCLE`, and the outputs it reads (00_scope.md R4). Each is atomic and
complete (20_memory.md R37); what it writes is 10_state.md R27. -/

namespace Sys2Proof.Machine

/-- The codes of the cycle and load results (60_exceptions.md R94); a tone is no result of a cycle and has none. -/
def Result.code : Result → Option Nat
  | .ok => some 0
  | .awaiting => some 1
  | .invalidMemoryAccess _ _ => some 2
  | .stackOverflow _ => some 3
  | .stackUnderflow _ => some 4
  | .unknownOpcode _ _ => some 5
  | .imageTooLarge _ => some 6
  | .tone _ => none

/-- Whether a result is a runtime condition, one a cycle raises (60_exceptions.md R94). -/
def Result.isCondition : Result → Bool
  | .invalidMemoryAccess _ _ => true
  | .stackOverflow _ => true
  | .stackUnderflow _ => true
  | .unknownOpcode _ _ => true
  | .ok | .awaiting | .imageTooLarge _ | .tone _ => false

/-- `RESET` (70_reset_and_hazards.md R111): every element to its value in 10_state.md R28, `KEYS` unchanged (D23). It
returns nothing; the input ports are the host's and are kept. -/
def commandReset (s : State) : State :=
  { State.reset with keys := s.keys, draw := s.draw, draws := s.draws, pending := s.pending, result := none }

/-- `LOAD(image)` (70_reset_and_hazards.md R113): the image at 0x200, or `ImageTooLarge` with nothing written. -/
def commandLoad (image : List Byte) (s : State) : State :=
  if Config.maxImage < image.length then { s with result := some (.imageTooLarge image.length) }
  else { s.writeBlock Config.progBase image with result := some .ok }

/-- One timer's tick: "decrements each nonzero timer by exactly 1", never below 0 (60_exceptions.md R100). -/
def tickTimer (t : Byte) : Byte := if t != 0 then t - 1 else t

/-- `TICK` (60_exceptions.md R100): the tone is sampled before the decrement. -/
def commandTick (s : State) : State :=
  { s with dt := tickTimer s.dt, st := tickTimer s.st, result := some (.tone (s.st != 0)) }

/-- Whether `SET_KEY(k, p)` is the first fresh key-down edge of a pending wait (60_exceptions.md R104, D21). -/
def State.freshEdge (s : State) (k : Key) (p : Bool) : Bool :=
  p && !s.keyPressed k && s.wait.isSome && s.edge.isNone

/-- `SET_KEY(k, p)` (60_exceptions.md R104). It returns nothing. -/
def commandSetKey (k : Key) (p : Bool) (s : State) : State :=
  { s with
    edge := if s.freshEdge k p then some k else s.edge
    keys := s.keys.set k.toNat p k.isLt
    result := none }

/-- The output `FB` (60_exceptions.md R105): whether the pixel is lit. -/
def State.lit (s : State) (row : Fin 32) (col : Fin 64) : Bool := pixel s.fb row col

/-- The output `SOUND_ACTIVE` (60_exceptions.md R106): `ST != 0`. -/
def State.soundActive (s : State) : Bool := s.st != 0

end Sys2Proof.Machine
end

