-- ==== Sys2Proof/Machine/Flags.lean ====
section
/-! DEFINITION. Every flag computation (10_state.md R15): the values written to VF. VF is the only flag register, and
there are no other flags, condition codes or predicates. -/

namespace Sys2Proof.Machine

/-- A flag as the byte VF holds. -/
def flagByte (f : Bool) : Byte := if f then 1 else 0

/-- 8XY4's carry: 1 if `vx + vy > 255` (43_alu.md R74), by the 9-bit sum. -/
def carryFlag (vx vy : Byte) : Byte :=
  flagByte (decide (255 < (vx.zeroExtend 9 + vy.zeroExtend 9).toNat))

/-- 8XY5's and 8XY7's NOT borrow of `p - q`: 1 if `p >= q` (43_alu.md R75, R77). -/
def noBorrowFlag (p q : Byte) : Byte := flagByte (decide (q ≤ p))

/-- 8XY6's bit shifted out: old bit 0 (43_alu.md R76). -/
def shiftOutLow (vx : Byte) : Byte := flagByte (vx.getLsbD 0)

/-- 8XYE's bit shifted out: old bit 7 (43_alu.md R78). -/
def shiftOutHigh (vx : Byte) : Byte := flagByte (vx.getLsbD 7)

/-- DXYN's collision flag (41_display.md R56). -/
def collisionFlag (collided : Bool) : Byte := flagByte collided

/-- The end of a flag-producing ALU instruction (43_alu.md R67): VF is written first, then `V[x]`, so that for `x = F`
the result stays and the flag is lost. -/
def finishFlagged (x : Reg) (flag result : Byte) (s : State) : Host.Outcome State Fault Refusal :=
  advance ((s.setReg flagReg flag).setReg x result)

end Sys2Proof.Machine
end

