-- ==== Sys2Proof/Machine/Alu.lean ====
section
/-! DEFINITION. The register and arithmetic instructions (43_alu.md): 8-bit, unsigned, modulo 256 (R66). -/

namespace Sys2Proof.Machine

/-- `6XNN` LD Vx, nn (R68). -/
def execLdVxNn (x : Reg) (nn : Byte) (s : State) : Host.Outcome State Fault Refusal :=
  advance (s.setReg x nn)

/-- `7XNN` ADD Vx, nn (R69): no flag. -/
def execAddVxNn (x : Reg) (nn : Byte) (s : State) : Host.Outcome State Fault Refusal :=
  advance (s.setReg x (s.reg x + nn))

/-- `8XY0` LD Vx, Vy (R70). -/
def execLdVxVy (x y : Reg) (s : State) : Host.Outcome State Fault Refusal :=
  advance (s.setReg x (s.reg y))

/-- `8XY1` OR Vx, Vy (R71): VF is not reset. -/
def execOrVxVy (x y : Reg) (s : State) : Host.Outcome State Fault Refusal :=
  advance (s.setReg x (s.reg x ||| s.reg y))

/-- `8XY2` AND Vx, Vy (R72). -/
def execAndVxVy (x y : Reg) (s : State) : Host.Outcome State Fault Refusal :=
  advance (s.setReg x (s.reg x &&& s.reg y))

/-- `8XY3` XOR Vx, Vy (R73). -/
def execXorVxVy (x y : Reg) (s : State) : Host.Outcome State Fault Refusal :=
  advance (s.setReg x (s.reg x ^^^ s.reg y))

/-- `8XY4` ADD Vx, Vy (R74): VF is the carry. -/
def execAddVxVy (x y : Reg) (s : State) : Host.Outcome State Fault Refusal :=
  finishFlagged x (carryFlag (s.reg x) (s.reg y)) (s.reg x + s.reg y) s

/-- `8XY5` SUB Vx, Vy (R75): VF is 1 when `V[x] >= V[y]`. -/
def execSubVxVy (x y : Reg) (s : State) : Host.Outcome State Fault Refusal :=
  finishFlagged x (noBorrowFlag (s.reg x) (s.reg y)) (s.reg x - s.reg y) s

/-- `8XY6` SHR Vx (R76): VF is old bit 0; `V[y]` is not read. -/
def execShrVx (x : Reg) (s : State) : Host.Outcome State Fault Refusal :=
  finishFlagged x (shiftOutLow (s.reg x)) (s.reg x >>> 1) s

/-- `8XY7` SUBN Vx, Vy (R77): VF is 1 when `V[y] >= V[x]`. -/
def execSubnVxVy (x y : Reg) (s : State) : Host.Outcome State Fault Refusal :=
  finishFlagged x (noBorrowFlag (s.reg y) (s.reg x)) (s.reg y - s.reg x) s

/-- `8XYE` SHL Vx (R78): VF is old bit 7; `V[y]` is not read. -/
def execShlVx (x : Reg) (s : State) : Host.Outcome State Fault Refusal :=
  finishFlagged x (shiftOutHigh (s.reg x)) (s.reg x <<< 1) s

/-- `CXNN` RND Vx, nn (R79): the cycle's draw `r` (40_cycle.md R52) ANDed with `nn`. -/
def execRndVxNn (x : Reg) (nn : Byte) (s : State) : Host.Outcome State Fault Refusal :=
  advance (s.setReg x (s.draw &&& nn))

end Sys2Proof.Machine
end

