-- ==== Sys2Proof/Machine/Control.lean ====
section
/-! DEFINITION. The control-transfer instructions (42_control_flow.md). In each, `s.pc` is the address `a` the
instruction was fetched from. -/

namespace Sys2Proof.Machine

/-- `00EE` RET (R58): pop the stack into `PC`; an empty stack is `StackUnderflow`. -/
def execRet (s : State) : Host.Outcome State Fault Refusal :=
  if live : 0 < s.sp.val then jumpTo (s.top live) s.drop else raise (.stackUnderflow s.pc) s

/-- `1NNN` JP nnn (R59). -/
def execJpNnn (nnn : Addr12) (s : State) : Host.Outcome State Fault Refusal :=
  jumpTo (zext16 nnn) s

/-- `2NNN` CALL nnn (R60): push `a + 2`, then jump; a full stack is `StackOverflow`. -/
def execCallNnn (nnn : Addr12) (s : State) : Host.Outcome State Fault Refusal :=
  if room : s.sp.val < 16 then jumpTo (zext16 nnn) (s.push (s.pc + 2) room) else raise (.stackOverflow s.pc) s

/-- `3XNN` SE Vx, nn (R61). -/
def execSeVxNn (x : Reg) (nn : Byte) (s : State) : Host.Outcome State Fault Refusal :=
  skipIf (s.reg x == nn) s

/-- `4XNN` SNE Vx, nn (R62). -/
def execSneVxNn (x : Reg) (nn : Byte) (s : State) : Host.Outcome State Fault Refusal :=
  skipIf (s.reg x != nn) s

/-- `5XYN` SE Vx, Vy (R63); the low nibble is ignored. -/
def execSeVxVy (x y : Reg) (s : State) : Host.Outcome State Fault Refusal :=
  skipIf (s.reg x == s.reg y) s

/-- `9XYN` SNE Vx, Vy (R64); the low nibble is ignored. -/
def execSneVxVy (x y : Reg) (s : State) : Host.Outcome State Fault Refusal :=
  skipIf (s.reg x != s.reg y) s

/-- `BNNN` JP V0, nnn (R65): the offset is always `V[0]`. -/
def execJpV0Nnn (nnn : Addr12) (s : State) : Host.Outcome State Fault Refusal :=
  jumpTo (offsetTarget nnn (s.reg 0)) s

end Sys2Proof.Machine
end

