-- ==== Sys2Proof/Machine/Display.lean ====
section
/-! DEFINITION. The display instructions (41_display.md): CLS and DRW. -/

namespace Sys2Proof.Machine

/-- `00E0` CLS (R55): every pixel of the frame buffer is set to 0. -/
def execCls (s : State) : Host.Outcome State Fault Refusal :=
  advance { s with fb := clearFrame }

/-- One bit of a sprite byte (R56): where it is 1, note a lit pixel as a collision and XOR the pixel with 1. -/
def drawBit (cx : Byte) (row : Fin 32) (sprite : Byte) (drawn : FrameBuffer × Bool) (c : Nat) : FrameBuffer × Bool :=
  if spriteBit sprite c then
    (flipPixel drawn.1 row (spriteCol cx c), drawn.2 || pixel drawn.1 row (spriteCol cx c))
  else drawn

/-- The 8 bits of one sprite byte, left to right (R56). -/
def drawByte (cx : Byte) (row : Fin 32) (sprite : Byte) (drawn : FrameBuffer × Bool) : FrameBuffer × Bool :=
  (List.range 8).foldl (drawBit cx row sprite) drawn

/-- The rows of a sprite from row `r` on, top first (R56). -/
def drawRows (cx cy : Byte) : Nat → List Byte → FrameBuffer × Bool → FrameBuffer × Bool
  | _, [], drawn => drawn
  | r, sprite :: sprites, drawn => drawRows cx cy (r + 1) sprites (drawByte cx (spriteRow cy r) sprite drawn)

/-- `DXYN` DRW (R56): the bounds check, then the draw at (`V[x]`, `V[y]`) read before any write, then VF. -/
def execDrwVxVyN (x y : Reg) (n : Nibble) (s : State) : Host.Outcome State Fault Refusal :=
  if s.blockOutOfBounds n.toNat then raise s.blockCondition s
  else
    let drawn := drawRows (s.reg x) (s.reg y) 0 (s.readBlock s.i.toNat n.toNat) (s.fb, false)
    advance (State.setReg { s with fb := drawn.1 } flagReg (collisionFlag drawn.2))

end Sys2Proof.Machine
end

