-- ==== Sys2Proof/Machine/IndexMemory.lean ====
section
/-! DEFINITION. The index-register and memory instructions (44_index_memory.md). None changes `I` as a side effect of
an access (R80, D8). -/

namespace Sys2Proof.Machine

/-- `ANNN` LD I, nnn (R81). -/
def execLdINnn (nnn : Addr12) (s : State) : Host.Outcome State Fault Refusal :=
  advance { s with i := zext16 nnn }

/-- `FX1E` ADD I, Vx (R82): masked to 12 bits, no flag. -/
def execAddIVx (x : Reg) (s : State) : Host.Outcome State Fault Refusal :=
  advance { s with i := indexSum s.i (s.reg x) }

/-- `FX29` LD F, Vx (R83): the glyph of the low nibble. -/
def execLdFVx (x : Reg) (s : State) : Host.Outcome State Fault Refusal :=
  advance { s with i := glyphAddress (s.reg x) }

/-- `FX33` LD B, Vx (R84): the three decimal digits, after the bounds check. -/
def execLdBVx (x : Reg) (s : State) : Host.Outcome State Fault Refusal :=
  if s.blockOutOfBounds 3 then raise s.blockCondition s
  else advance (s.writeBlock s.i.toNat (bcdDigits (s.reg x)))

/-- `FX55` LD [I], Vx (R85): `V[0..x]` stored from `I` up, after the bounds check. -/
def execLdMemVx (x : Reg) (s : State) : Host.Outcome State Fault Refusal :=
  if s.blockOutOfBounds (x.toNat + 1) then raise s.blockCondition s
  else advance (s.writeBlock s.i.toNat (s.regsUpTo x))

/-- `FX65` LD Vx, [I] (R86): `V[0..x]` loaded from `I` up, after the bounds check, all reads first. -/
def execLdVxMem (x : Reg) (s : State) : Host.Outcome State Fault Refusal :=
  if s.blockOutOfBounds (x.toNat + 1) then raise s.blockCondition s
  else advance (s.setRegsFrom 0 (s.readBlock s.i.toNat (x.toNat + 1)))

end Sys2Proof.Machine
end

