-- ==== Sys2Proof/Machine/KeysTimers.lean ====
section
/-! DEFINITION. The key and timer instructions (45_keys_timers.md), and the poll a `CYCLE` performs while a key-wait is
pending (R93). -/

namespace Sys2Proof.Machine

/-- `EX9E` SKP Vx (R87). -/
def execSkpVx (x : Reg) (s : State) : Host.Outcome State Fault Refusal :=
  skipIf (s.keyPressed (keyNumber (s.reg x))) s

/-- `EXA1` SKNP Vx (R88). -/
def execSknpVx (x : Reg) (s : State) : Host.Outcome State Fault Refusal :=
  skipIf (!s.keyPressed (keyNumber (s.reg x))) s

/-- `FX07` LD Vx, DT (R89). -/
def execLdVxDt (x : Reg) (s : State) : Host.Outcome State Fault Refusal :=
  advance (s.setReg x s.dt)

/-- `FX15` LD DT, Vx (R90). -/
def execLdDtVx (x : Reg) (s : State) : Host.Outcome State Fault Refusal :=
  advance { s with dt := s.reg x }

/-- `FX18` LD ST, Vx (R91). -/
def execLdStVx (x : Reg) (s : State) : Host.Outcome State Fault Refusal :=
  advance { s with st := s.reg x }

/-- `FX0A` LD Vx, K (R92): the wait begins, `PC` stays at the instruction, the cycle returns `Awaiting`. -/
def execLdVxK (x : Reg) (s : State) : Host.Outcome State Fault Refusal :=
  .next { s with wait := some x, edge := none, result := some .awaiting }

/-- `KeyWaitPoll(x)` (R93): a latched edge completes the wait; otherwise nothing changes and the cycle returns
`Awaiting`. -/
def keyWaitPoll (x : Reg) (s : State) : Host.Outcome State Fault Refusal :=
  match s.edge with
  | some k => advance { s.setReg x (k.zeroExtend 8) with wait := none, edge := none }
  | none => .next { s with result := some .awaiting }

end Sys2Proof.Machine
end

