-- ==== Sys2Proof/Machine/Cycle.lean ====
section
/-! DEFINITION. The `CYCLE` command (40_cycle.md R49) and one command of the host (00_scope.md R4). -/

namespace Sys2Proof.Machine

/-- The fetch, decode and execute of a `CYCLE` with no wait pending (R49), in the order of 60_exceptions.md R96. -/
def fetchDecodeExecute (s : State) : Host.Outcome State Fault Refusal :=
  match s.fetch with
  | .error c => raise c s
  | .ok w =>
    match decode w with
    | .error _ => raise (.unknownOpcode s.pc w) s
    | .ok ins => exec ins s

/-- `CYCLE(r)` once `r` is on the input port (R49): a poll while a key-wait is pending, else one instruction. -/
def runCycle (s : State) : Host.Outcome State Fault Refusal :=
  match s.wait with
  | some x => keyWaitPoll x s
  | none => fetchDecodeExecute s

/-- `CYCLE(r)` (R49). -/
def commandCycle (r : Byte) (s : State) : Host.Outcome State Fault Refusal :=
  runCycle { s with draw := r }

/-- One command (00_scope.md R4): atomic, performed to its end (20_memory.md R37). -/
def perform (c : Command) (s : State) : Host.Outcome State Fault Refusal :=
  match c with
  | .reset => .next (commandReset s)
  | .load image => .next (commandLoad image s)
  | .cycle r => commandCycle r s
  | .tick => .next (commandTick s)
  | .setKey k p => .next (commandSetKey k p s)

/-- The next command of the host and the state it is performed on: the oldest pending one, or, when none is pending, a
`CYCLE` whose draw is the next free value (log entries 2 and 3). -/
def takeCommand (s : State) : Command × State :=
  match s.pending with
  | c :: rest => (c, { s with pending := rest })
  | [] => (.cycle (Config.draw s.draws), { s with draws := s.draws + 1 })

end Sys2Proof.Machine
end

