-- ==== Sys2Proof/Machine/Step.lean ====
section
/-! DEFINITION. One step of the machine: the next command of the host, performed atomically (20_memory.md R37). -/

namespace Sys2Proof.Machine

/-- One command of the host (00_scope.md R4): the oldest pending one, else a `CYCLE` with a free draw (log entry 3). -/
def step (s : State) : Host.Outcome State Fault Refusal :=
  perform (takeCommand s).1 (takeCommand s).2

/-- The state whose next step is a `CYCLE` that fetches and runs the instruction of those bits (log entry 7). -/
def State.withFetchWord (s : State) (nbits w : Nat) : State :=
  s.placeWord (tableWord nbits w)

end Sys2Proof.Machine
end

