-- ==== Sys2Proof/Safety.lean ====
section
/-! DEFINITION. What claims are stated in: the invariant of the machine, a condition-free state, and the frames, which say
part by part what an instruction or a command leaves as it was. -/

namespace Sys2Proof.Machine

/-- The invariant every step keeps, in whatever order the host's commands come: the memory is in its canonical form,
`I` has 12 significant bits (10_state.md R16), and an edge is latched only while a key-wait is pending
(10_state.md R25). -/
abbrev State.Inv (s : State) : Prop :=
  s.mem.wf = true ∧ s.i.toNat < 0x1000 ∧ (s.wait = none → s.edge = none)

/-- A safe state: the last command returned no runtime condition (60_exceptions.md R94). -/
abbrev State.Safe (s : State) : Prop :=
  ∀ c, s.result = some c → c.isCondition = false

/-! ### Frames: the part of `t` that is as in `s` -/

/-- Every general register but those of `xs`. -/
def RegsKept (xs : List Reg) (s t : State) : Prop := ∀ z, z ∉ xs → t.reg z = s.reg z

/-- Every byte of memory. -/
def MemoryKept (s t : State) : Prop := ∀ a, t.memRead a = s.memRead a

/-- Every byte of memory outside the `n` bytes from `base` up. -/
def MemoryKeptOutside (base n : Nat) (s t : State) : Prop :=
  ∀ a, ¬(base ≤ a ∧ a < base + n) → t.memRead a = s.memRead a

/-- The index register. -/
def IndexKept (s t : State) : Prop := t.i = s.i

/-- The return stack and its pointer. -/
def StackKept (s t : State) : Prop := t.stack = s.stack ∧ t.sp = s.sp

/-- Both timers. -/
def TimersKept (s t : State) : Prop := t.dt = s.dt ∧ t.st = s.st

/-- Every pixel. -/
def FrameBufferKept (s t : State) : Prop := ∀ row col, t.lit row col = s.lit row col

/-- Every key's latch bit. -/
def KeysKept (s t : State) : Prop := ∀ k, t.keyPressed k = s.keyPressed k

/-- The key-wait sub-state and its edge latch. -/
def WaitKept (s t : State) : Prop := t.wait = s.wait ∧ t.edge = s.edge

/-- The input ports: the draw of this cycle, the count of free draws, the host's pending commands. -/
def PortsKept (s t : State) : Prop := t.draw = s.draw ∧ t.draws = s.draws ∧ t.pending = s.pending

/-- The frame of an instruction that writes general registers of `xs` only. -/
def OnlyRegs (xs : List Reg) (s t : State) : Prop :=
  RegsKept xs s t ∧ MemoryKept s t ∧ IndexKept s t ∧ StackKept s t ∧ TimersKept s t ∧
  FrameBufferKept s t ∧ KeysKept s t ∧ WaitKept s t ∧ PortsKept s t

/-- The frame of an instruction that writes nothing but `PC`. -/
def OnlyPc (s t : State) : Prop := OnlyRegs [] s t

/-- The frame of an instruction that writes the index register only. -/
def OnlyIndex (s t : State) : Prop :=
  RegsKept [] s t ∧ MemoryKept s t ∧ StackKept s t ∧ TimersKept s t ∧
  FrameBufferKept s t ∧ KeysKept s t ∧ WaitKept s t ∧ PortsKept s t

/-- The frame of an instruction that stores the `n` bytes from `base` up only. -/
def OnlyStores (base n : Nat) (s t : State) : Prop :=
  RegsKept [] s t ∧ MemoryKeptOutside base n s t ∧ IndexKept s t ∧ StackKept s t ∧ TimersKept s t ∧
  FrameBufferKept s t ∧ KeysKept s t ∧ WaitKept s t ∧ PortsKept s t

/-- The frame of an instruction that writes the return stack and its pointer only. -/
def OnlyStack (s t : State) : Prop :=
  RegsKept [] s t ∧ MemoryKept s t ∧ IndexKept s t ∧ TimersKept s t ∧
  FrameBufferKept s t ∧ KeysKept s t ∧ WaitKept s t ∧ PortsKept s t

/-- The frame of an instruction that writes the timers only. -/
def OnlyTimers (s t : State) : Prop :=
  RegsKept [] s t ∧ MemoryKept s t ∧ IndexKept s t ∧ StackKept s t ∧
  FrameBufferKept s t ∧ KeysKept s t ∧ WaitKept s t ∧ PortsKept s t

/-- The frame of an instruction that writes the frame buffer and the registers of `xs` only. -/
def OnlyFrameBufferAndRegs (xs : List Reg) (s t : State) : Prop :=
  RegsKept xs s t ∧ MemoryKept s t ∧ IndexKept s t ∧ StackKept s t ∧ TimersKept s t ∧
  KeysKept s t ∧ WaitKept s t ∧ PortsKept s t

/-- The frame of a cycle that writes the key-wait sub-state and the registers of `xs` only. -/
def OnlyWaitAndRegs (xs : List Reg) (s t : State) : Prop :=
  RegsKept xs s t ∧ MemoryKept s t ∧ IndexKept s t ∧ StackKept s t ∧ TimersKept s t ∧
  FrameBufferKept s t ∧ KeysKept s t ∧ PortsKept s t

/-- A condition was raised at `s` (00_scope.md R10, 60_exceptions.md R95): the next state is `s` with `PC <- a +_16 2` and
the condition returned, and nothing else changed. -/
def Raised (c : Result) (s : State) (o : Host.Outcome State Fault Refusal) : Prop :=
  o = .next { s with pc := s.pc + 2, result := some c }

/-! ### The sprite, pixel by pixel (41_display.md R56) -/

/-- The sprite of `n` bytes at `base` drawn at column `cx` and row `cy` covers the pixel: some 1 bit of it, bit 7 leftmost,
lands there, each pixel's coordinates taken modulo the size (D3, D5). -/
def SpriteCovers (s : State) (base n : Nat) (cx cy : Byte) (row : Fin 32) (col : Fin 64) : Prop :=
  ∃ r c sprite, r < n ∧ c < 8 ∧ s.memRead (base + r) = some sprite ∧ sprite.getLsbD (7 - c) = true ∧
    row.val = (cy.toNat + r) % 32 ∧ col.val = (cx.toNat + c) % 64

/-! ### Dead stack entries (10_state.md R18) -/

/-- The two states agree but for stack entries at or above `SP`. -/
def AgreeButDeadStack (s t : State) : Prop :=
  t = { s with stack := t.stack } ∧ ∀ j (h : j < 16), j < s.sp.val → t.stack[j] = s.stack[j]

end Sys2Proof.Machine
end

