-- ==== Sys2Proof/Certificates/Slice0/Obligations.lean ====
section
/-! DEFINITION. The statements for the provers, from the numbered rules of spec/. Each docstring names the rule; where a
statement rests on a decision of the spec itself (92_eei_decisions.md), it names the decision.
In a statement about an instruction, the first clause is its encoding (30_encoding.md R45), and the next state `t` is
described part by part: what is written, `PC`, the result of the cycle, and the frame (Safety.lean) for the rest. -/

open Sys2Proof Sys2Proof.Machine

/-! ### What the statements are written with -/

/-- The font of 10_state.md R13, one list per glyph, as the rule prints it. -/
def Sys2Proof.Machine.glyphTable : List (List Byte) :=
  [[0xF0, 0x90, 0x90, 0x90, 0xF0], [0x20, 0x60, 0x20, 0x20, 0x70], [0xF0, 0x10, 0xF0, 0x80, 0xF0],
   [0xF0, 0x10, 0xF0, 0x10, 0xF0], [0x90, 0x90, 0xF0, 0x10, 0x10], [0xF0, 0x80, 0xF0, 0x10, 0xF0],
   [0xF0, 0x80, 0xF0, 0x90, 0xF0], [0xF0, 0x10, 0x20, 0x40, 0x40]] ++
  [[0xF0, 0x90, 0xF0, 0x90, 0xF0], [0xF0, 0x90, 0xF0, 0x10, 0xF0], [0xF0, 0x90, 0xF0, 0x90, 0x90],
   [0xE0, 0x90, 0xE0, 0x90, 0xE0], [0xF0, 0x80, 0x80, 0x80, 0xF0], [0xE0, 0x90, 0x90, 0x90, 0xE0],
   [0xF0, 0x80, 0xF0, 0x80, 0xF0], [0xF0, 0x80, 0xF0, 0x80, 0x80]]

/-- The next `PC` of an instruction fetched at `s.pc` (the table of 40_cycle.md R54). -/
def Sys2Proof.Machine.pcTable (s : State) : Instr → Word
  | .ret => if s.sp.val = 0 then s.pc + 2 else (s.stack[s.sp.val - 1]?).getD 0
  | .jpNnn nnn => nnn.zeroExtend 16
  | .callNnn nnn => if s.sp.val = 16 then s.pc + 2 else nnn.zeroExtend 16
  | .seVxNn x nn => if s.reg x = nn then s.pc + 4 else s.pc + 2
  | .sneVxNn x nn => if s.reg x ≠ nn then s.pc + 4 else s.pc + 2
  | .seVxVy x y _ => if s.reg x = s.reg y then s.pc + 4 else s.pc + 2
  | .sneVxVy x y _ => if s.reg x ≠ s.reg y then s.pc + 4 else s.pc + 2
  | .skpVx x => if s.keys[(s.reg x).toNat % 16]? = some true then s.pc + 4 else s.pc + 2
  | .sknpVx x => if s.keys[(s.reg x).toNat % 16]? = some false then s.pc + 4 else s.pc + 2
  | .jpV0Nnn nnn => nnn.zeroExtend 16 + (s.reg 0).zeroExtend 16
  | .ldVxK _ => s.pc
  | .cls | .ldVxNn _ _ | .addVxNn _ _ | .ldVxVy _ _ | .orVxVy _ _ | .andVxVy _ _ | .xorVxVy _ _ | .addVxVy _ _
  | .subVxVy _ _ | .shrVx _ _ | .subnVxVy _ _ | .shlVx _ _ | .ldINnn _ | .rndVxNn _ _ | .drwVxVyN _ _ _ | .ldVxDt _
  | .ldDtVx _ | .ldStVx _ | .addIVx _ | .ldFVx _ | .ldBVx _ | .ldMemVx _ | .ldVxMem _ => s.pc + 2

/-- The registers an instruction names as destinations, apart from VF written as a flag (10_state.md R15). -/
def Sys2Proof.Machine.destinations : Instr → List Reg
  | .ldVxNn x _ | .addVxNn x _ | .ldVxVy x _ | .orVxVy x _ | .andVxVy x _ | .xorVxVy x _ | .addVxVy x _ | .subVxVy x _
  | .shrVx x _ | .subnVxVy x _ | .shlVx x _ | .rndVxNn x _ | .ldVxDt x => [x]
  | .ldVxMem x => (List.range (x.toNat + 1)).map (BitVec.ofNat 4)
  | .cls | .ret | .jpNnn _ | .callNnn _ | .seVxNn _ _ | .sneVxNn _ _ | .seVxVy _ _ _ | .sneVxVy _ _ _ | .ldINnn _
  | .jpV0Nnn _ | .drwVxVyN _ _ _ | .skpVx _ | .sknpVx _ | .ldVxK _ | .ldDtVx _ | .ldStVx _ | .addIVx _ | .ldFVx _
  | .ldBVx _ | .ldMemVx _ => []

/-- The instructions that write VF as a flag (10_state.md R15). -/
def Sys2Proof.Machine.producesFlag : Instr → Bool
  | .addVxVy _ _ | .subVxVy _ _ | .shrVx _ _ | .subnVxVy _ _ | .shlVx _ _ | .drwVxVyN _ _ _ => true
  | .cls | .ret | .jpNnn _ | .callNnn _ | .seVxNn _ _ | .sneVxNn _ _ | .seVxVy _ _ _ | .sneVxVy _ _ _ | .ldINnn _
  | .jpV0Nnn _ | .skpVx _ | .sknpVx _ | .ldVxK _ | .ldDtVx _ | .ldStVx _ | .addIVx _ | .ldFVx _ | .ldBVx _ | .ldMemVx _
  | .ldVxNn _ _ | .addVxNn _ _ | .ldVxVy _ _ | .orVxVy _ _ | .andVxVy _ _ | .xorVxVy _ _ | .rndVxNn _ _ | .ldVxDt _
  | .ldVxMem _ => false

/-! ### Encoding (30_encoding.md) -/

/-- The words the source shows (95_test_vectors.md S10 to S13) and at least one of every family 0x0 to 0xF, written out from
R45; 5121 and 912F are instructions by D13. -/
def Obligations.SpecWordsDecode : Prop :=
  decode 0x00E0 = .ok .cls ∧ decode 0x00EE = .ok .ret ∧ decode 0x1200 = .ok (.jpNnn 0x200) ∧
  decode 0x6005 = .ok (.ldVxNn 0 0x05) ∧ decode 0x6103 = .ok (.ldVxNn 1 0x03) ∧ decode 0x8014 = .ok (.addVxVy 0 1) ∧
  decode 0xA202 = .ok (.ldINnn 0x202) ∧ decode 0xF029 = .ok (.ldFVx 0) ∧ decode 0x5121 = .ok (.seVxVy 1 2 1) ∧
  decode 0xD015 = .ok (.drwVxVyN 0 1 5) ∧ decode 0xE19E = .ok (.skpVx 1) ∧ decode 0xF265 = .ok (.ldVxMem 2) ∧
  decode 0x2300 = .ok (.callNnn 0x300) ∧ decode 0x3312 = .ok (.seVxNn 3 0x12) ∧ decode 0x4300 = .ok (.sneVxNn 3 0x00) ∧
  decode 0x7220 = .ok (.addVxNn 2 0x20) ∧ decode 0x912F = .ok (.sneVxVy 1 2 0xF) ∧
  decode 0xB300 = .ok (.jpV0Nnn 0x300) ∧ decode 0xC30F = .ok (.rndVxNn 3 0x0F)

/-- R44, R45 (D13): decoding an instruction's word gives the instruction back, every field at every value. -/
def Obligations.DecodeEncodeEveryInstr : Prop :=
  ∀ i : Instr, decode (encode i) = .ok i

/-- R44, R45: a word that decodes is the word of the instruction it decodes to, so that no bit of it is dropped. -/
def Obligations.EncodeOfDecodedWord : Prop :=
  ∀ (w : Word) (i : Instr), decode w = .ok i → encode i = w

/-- R45: the 34 patterns are disjoint, and the decoder of R44 accepts exactly the words they cover, each as the row's own
instruction. -/
def Obligations.OpcodeMapDisjointAndDecoded : Prop :=
  opcodeMap.length = 34 ∧
  ∀ w : Word,
    (∀ i, decode w = .ok i → (opcodeMap.filter (·.covers w)).map (·.mnemonic) = [i.mnemonic]) ∧
    (wellFormedWord w = false → decode w = .error (.unknownOpcode w)) ∧
    (wellFormedWord w = true → ∃ i, decode w = .ok i)

/-- R46: the unknown words, set by set (the counts of its table are not stated). -/
def Obligations.UnknownWordsExactly : Prop :=
  ∀ w : Word, decode w = .error (.unknownOpcode w) ↔
    (w.toNat < 0x1000 ∧ w ≠ 0x00E0 ∧ w ≠ 0x00EE) ∨
    (w.toNat / 0x1000 = 0x8 ∧ w.toNat % 0x10 ∈ [0x8, 0x9, 0xA, 0xB, 0xC, 0xD, 0xF]) ∨
    (w.toNat / 0x1000 = 0xE ∧ w.toNat % 0x100 ∉ [0x9E, 0xA1]) ∨
    (w.toNat / 0x1000 = 0xF ∧ w.toNat % 0x100 ∉ [0x07, 0x0A, 0x15, 0x18, 0x1E, 0x29, 0x33, 0x55, 0x65])

/-! ### The cycle (40_cycle.md) and the conditions (60_exceptions.md) -/

/-- R49, R37 of 20_memory.md: a step runs the decoded instruction. With no wait pending, where the two bytes at `PC` decode
(high byte first) to `i`: with no command of the host pending, step is exec of `i` with the next free draw on the input
port and the count of draws advanced (log entries 2, 3); with a pending `CYCLE(r)`, step is exec of `i` with that `r` on
the port and the command taken off. -/
def Obligations.StepRunsDecodedInstr : Prop :=
  ∀ (s : State) (hi lo : Byte) (i : Instr), s.wait = none → s.memRead s.pc.toNat = some hi →
    s.memRead (s.pc.toNat + 1) = some lo → decode (hi ++ lo) = .ok i →
    (s.pending = [] → step s = exec i { s with draw := Config.draw s.draws, draws := s.draws + 1 }) ∧
    (∀ r rest, s.pending = .cycle r :: rest → step s = exec i { s with draw := r, pending := rest })

/-- 20_memory.md R37: commands are performed one at a time in the order the host issues them. (The list of pending
commands is the model's own, log entry 3.) -/
def Obligations.CommandsInOrder : Prop :=
  ∀ (s : State) (c : Command) (rest : List Command), s.pending = c :: rest →
    step s = perform c { s with pending := rest } ∧
    ∀ t, step s = .next t → t.pending = rest

/-- R50 (D16 for the recorded address, D19 for the parity): the fetch. Below 0x0FFF the two bytes are
read high byte first, whatever the parity of `PC`; at 0x0FFF and above the cycle (nothing but `PC + 2` and the result
changing, R10, R95, D15) raises `InvalidMemoryAccess` with the first out-of-bounds address and decodes nothing. -/
def Obligations.FetchReadsTwoBytesOrRaises : Prop :=
  ∀ s : State, s.wait = none →
    (s.pc.toNat ≤ 0x0FFE → ∃ hi lo, s.memRead s.pc.toNat = some hi ∧ s.memRead (s.pc.toNat + 1) = some lo ∧
      s.fetch = .ok (hi ++ lo)) ∧
    (s.pc.toNat = 0x0FFF → Raised (.invalidMemoryAccess s.pc 0x1000) s (runCycle s)) ∧
    (0x1000 ≤ s.pc.toNat → Raised (.invalidMemoryAccess s.pc s.pc.toNat) s (runCycle s))

/-- R46, R95 (D14 for 0NNN): an unknown word is reported, and the cycle is a no-op advancing `PC` by 2. -/
def Obligations.UnknownOpcodeAdvances : Prop :=
  ∀ (s : State) (hi lo : Byte), s.wait = none → s.memRead s.pc.toNat = some hi →
    s.memRead (s.pc.toNat + 1) = some lo → wellFormedWord (hi ++ lo) = false →
    Raised (.unknownOpcode s.pc (hi ++ lo)) s (runCycle s)

/-- R97: the engine never aborts the process. Every instruction and every step answers a next state (the conditions are next
states of this model, log entry 1). -/
def Obligations.EveryStepAnswers : Prop :=
  (∀ (i : Instr) (s : State), ∃ t, exec i s = .next t) ∧ ∀ s : State, ∃ t, step s = .next t

/-- R95 (the decision D15 for the conditions other than `UnknownOpcode`): a runtime condition is precise. -/
def Obligations.ConditionsArePrecise : Prop :=
  ∀ (s t : State) (c : Result), runCycle s = .next t → t.result = some c → c.isCondition = true →
    t = { s with pc := s.pc + 2, result := some c }

/-- R96, R94: the conditions an instruction can raise, when (R56, R58, R60, R84, R85, R86), and what they record; none raises any
other. That 0x1000 is recorded also where `I` is itself at or above 0x1000, in states no run reaches, is the model's reading of
the pseudocode (log entry 6). -/
def Obligations.ConditionsByInstr : Prop :=
  ∀ (i : Instr) (s t : State) (c : Result), exec i s = .next t → t.result = some c → c.isCondition = true →
    (i = .ret ∧ s.sp.val = 0 ∧ c = .stackUnderflow s.pc) ∨
    ((∃ nnn, i = .callNnn nnn) ∧ s.sp.val = 16 ∧ c = .stackOverflow s.pc) ∨
    ((∃ x y n, i = .drwVxVyN x y n ∧ 0 < n.toNat ∧ 0x1000 < s.i.toNat + n.toNat) ∧ c = .invalidMemoryAccess s.pc 0x1000) ∨
    ((∃ x, i = .ldBVx x) ∧ 0xFFE ≤ s.i.toNat ∧ c = .invalidMemoryAccess s.pc 0x1000) ∨
    ((∃ x, (i = .ldMemVx x ∨ i = .ldVxMem x) ∧ 0x1000 ≤ s.i.toNat + x.toNat) ∧ c = .invalidMemoryAccess s.pc 0x1000)

/-- R54: how `PC` advances, for every instruction (D18 for BNNN's missing mask, D21 for FX0A), the conditions among them. -/
def Obligations.PcAdvancesByTable : Prop :=
  ∀ (i : Instr) (s t : State), exec i s = .next t → t.pc = pcTable s i ∧
    ∀ c, t.result = some c → c.isCondition = true → t.pc = s.pc + 2

/-- R52 (D25): CXNN alone reads the draw `r`; every other instruction, and a poll, ignores it. -/
def Obligations.DrawReadByRndOnly : Prop :=
  (∀ (i : Instr) (s : State) (r : Byte), (∀ x nn, i ≠ .rndVxNn x nn) →
    ∃ t, exec i s = .next t ∧ exec i { s with draw := r } = .next { t with draw := r }) ∧
  (∀ (s : State) (r : Byte), s.wait ≠ none →
    ∃ t, runCycle s = .next t ∧ runCycle { s with draw := r } = .next { t with draw := r })

/-- R16, R18 to R25, R32 of 20_memory.md: which instructions write each element; no instruction writes `KEYS`, `DT` and `ST` are
written by FX15 and FX18 alone (40_cycle.md R53, D22), and `WAIT` and `EDGE` by FX0A alone (R24, R25, D21; the poll that ends a
wait is no instruction). The input ports are the model's own (log entries 2, 3). -/
def Obligations.StateWriters : Prop :=
  ∀ (i : Instr) (s t : State), exec i s = .next t →
    (t.fb ≠ s.fb → i = .cls ∨ ∃ x y n, i = .drwVxVyN x y n) ∧
    (t.mem ≠ s.mem → ∃ x, i = .ldBVx x ∨ i = .ldMemVx x) ∧
    (t.i ≠ s.i → (∃ nnn, i = .ldINnn nnn) ∨ ∃ x, i = .addIVx x ∨ i = .ldFVx x) ∧
    (t.stack ≠ s.stack → ∃ nnn, i = .callNnn nnn) ∧
    (t.sp ≠ s.sp → i = .ret ∨ ∃ nnn, i = .callNnn nnn) ∧
    (t.dt ≠ s.dt → ∃ x, i = .ldDtVx x) ∧ (t.st ≠ s.st → ∃ x, i = .ldStVx x) ∧
    (t.wait ≠ s.wait ∨ t.edge ≠ s.edge → ∃ x, i = .ldVxK x) ∧
    KeysKept s t ∧ PortsKept s t

/-- R15 (D6, D9): a register other than VF is written only as a named destination, and VF only by a flag producer or as a
named destination. -/
def Obligations.RegisterWriters : Prop :=
  ∀ (i : Instr) (s t : State), exec i s = .next t →
    RegsKept (if producesFlag i then 0xF :: destinations i else destinations i) s t

/-! ### Display (41_display.md) -/

/-- R55: CLS. -/
def Obligations.ClsClearsFrameBuffer : Prop :=
  decode 0x00E0 = .ok .cls ∧
  ∀ s : State, ∃ t, exec .cls s = .next t ∧ (∀ row col, t.lit row col = false) ∧
    t.pc = s.pc + 2 ∧ t.result = some .ok ∧ OnlyFrameBufferAndRegs [] s t

/-- R56 (D3, D4, D5, D36): DRW. In bounds, or with `n = 0`, each covered pixel is inverted, the others are kept, and VF is 1
exactly when a covered pixel was lit; otherwise the condition, checked before any pixel changes. -/
def Obligations.DrwXorsSprite : Prop :=
  ∀ (x y : Reg) (n : Nibble) (s : State), decode (0xD#4 ++ x ++ y ++ n) = .ok (.drwVxVyN x y n) ∧
    if 0 < n.toNat ∧ 0x1000 < s.i.toNat + n.toNat then
      Raised (.invalidMemoryAccess s.pc 0x1000) s (exec (.drwVxVyN x y n) s)
    else ∃ t, exec (.drwVxVyN x y n) s = .next t ∧
      (∀ row col, SpriteCovers s s.i.toNat n.toNat (s.reg x) (s.reg y) row col → t.lit row col = !s.lit row col) ∧
      (∀ row col, ¬SpriteCovers s s.i.toNat n.toNat (s.reg x) (s.reg y) row col → t.lit row col = s.lit row col) ∧
      ((∃ row col, SpriteCovers s s.i.toNat n.toNat (s.reg x) (s.reg y) row col ∧ s.lit row col = true) →
        t.reg 0xF = 1) ∧
      ((∀ row col, SpriteCovers s s.i.toNat n.toNat (s.reg x) (s.reg y) row col → s.lit row col = false) →
        t.reg 0xF = 0) ∧
      t.pc = s.pc + 2 ∧ t.result = some .ok ∧ OnlyFrameBufferAndRegs [0xF] s t

/-- R56's law of the second draw (D5): the same sprite at the same place restores the frame buffer, and the second draw
reports a collision when the first one lit some pixel, a premise R56's own pseudocode needs. (The coordinates are in registers
other than VF, so that the first draw's flag does not move the second; `DrwXorsSprite` covers `x = F` and `y = F`, draw by
draw.) -/
def Obligations.DrwTwiceRestores : Prop :=
  ∀ (x y : Reg) (n : Nibble) (s t u : State), x ≠ 0xF → y ≠ 0xF → s.i.toNat + n.toNat ≤ 0x1000 →
    exec (.drwVxVyN x y n) s = .next t → exec (.drwVxVyN x y n) t = .next u →
    FrameBufferKept s u ∧
    ((∃ row col, s.lit row col = false ∧ t.lit row col = true) → u.reg 0xF = 1)

/-! ### Control transfer (42_control_flow.md) -/

/-- R58 (D15 for what the underflow leaves, D34 for the entry that stays): RET. -/
def Obligations.RetPopsPc : Prop :=
  decode 0x00EE = .ok .ret ∧
  ∀ s : State,
    (0 < s.sp.val → ∃ t, exec .ret s = .next t ∧ some t.pc = s.stack[s.sp.val - 1]? ∧ t.sp.val = s.sp.val - 1 ∧
      t.stack = s.stack ∧ t.result = some .ok ∧ OnlyStack s t) ∧
    (s.sp.val = 0 → Raised (.stackUnderflow s.pc) s (exec .ret s))

/-- R59: JP nnn. A jump to itself leaves every element of the state as it was. -/
def Obligations.JpSetsPc : Prop :=
  ∀ (nnn : Addr12) (s : State), decode (0x1#4 ++ nnn) = .ok (.jpNnn nnn) ∧
    ∃ t, exec (.jpNnn nnn) s = .next t ∧ t.pc = nnn.zeroExtend 16 ∧ t.result = some .ok ∧ OnlyPc s t ∧
      (nnn.zeroExtend 16 = s.pc → t = { s with result := some .ok })

/-- R60 (D18 for the width of the pushed value, D15 for what the overflow leaves): CALL nnn. -/
def Obligations.CallPushesAndJumps : Prop :=
  ∀ (nnn : Addr12) (s : State), decode (0x2#4 ++ nnn) = .ok (.callNnn nnn) ∧
    (s.sp.val < 16 → ∃ t, exec (.callNnn nnn) s = .next t ∧ t.stack[s.sp.val]? = some (s.pc + 2) ∧
      (∀ j, j ≠ s.sp.val → t.stack[j]? = s.stack[j]?) ∧ t.sp.val = s.sp.val + 1 ∧ t.pc = nnn.zeroExtend 16 ∧
      t.result = some .ok ∧ OnlyStack s t) ∧
    (s.sp.val = 16 → Raised (.stackOverflow s.pc) s (exec (.callNnn nnn) s))

/-- R60, R58: "Call then Return with no intervening state change restores PC to the instruction immediately after the
call", and `SP` and the live entries with it; the code of the subroutine may lie anywhere. -/
def Obligations.CallThenRetReturns : Prop :=
  ∀ (nnn : Addr12) (s t : State) (p : Word), s.sp.val < 16 → exec (.callNnn nnn) s = .next t →
    ∃ u, exec .ret { t with pc := p } = .next u ∧ u.pc = s.pc + 2 ∧ u.sp = s.sp ∧
      ∀ j, j < s.sp.val → u.stack[j]? = s.stack[j]?

/-- R61, R62: SE Vx, nn and SNE Vx, nn. -/
def Obligations.SkipsOnImmediate : Prop :=
  ∀ (x : Reg) (nn : Byte) (s : State),
    decode (0x3#4 ++ x ++ nn) = .ok (.seVxNn x nn) ∧ decode (0x4#4 ++ x ++ nn) = .ok (.sneVxNn x nn) ∧
    (∃ t, exec (.seVxNn x nn) s = .next t ∧ t.pc = (if s.reg x = nn then s.pc + 4 else s.pc + 2) ∧
      t.result = some .ok ∧ OnlyPc s t) ∧
    (∃ t, exec (.sneVxNn x nn) s = .next t ∧ t.pc = (if s.reg x = nn then s.pc + 2 else s.pc + 4) ∧
      t.result = some .ok ∧ OnlyPc s t)

/-- R63, R64 (D13): SE Vx, Vy and SNE Vx, Vy, whatever the low nibble. -/
def Obligations.SkipsOnRegister : Prop :=
  ∀ (x y : Reg) (n : Nibble) (s : State),
    decode (0x5#4 ++ x ++ y ++ n) = .ok (.seVxVy x y n) ∧ decode (0x9#4 ++ x ++ y ++ n) = .ok (.sneVxVy x y n) ∧
    (∃ t, exec (.seVxVy x y n) s = .next t ∧ t.pc = (if s.reg x = s.reg y then s.pc + 4 else s.pc + 2) ∧
      t.result = some .ok ∧ OnlyPc s t) ∧
    (∃ t, exec (.sneVxVy x y n) s = .next t ∧ t.pc = (if s.reg x = s.reg y then s.pc + 2 else s.pc + 4) ∧
      t.result = some .ok ∧ OnlyPc s t)

/-- R65 (D18): JP V0, nnn. The sum is exact: at most 0x10FE, with no mask. -/
def Obligations.JpV0AddsOffset : Prop :=
  ∀ (nnn : Addr12) (s : State), decode (0xB#4 ++ nnn) = .ok (.jpV0Nnn nnn) ∧
    ∃ t, exec (.jpV0Nnn nnn) s = .next t ∧ t.pc.toNat = nnn.toNat + (s.reg 0).toNat ∧ t.result = some .ok ∧ OnlyPc s t

/-! ### Register and arithmetic (43_alu.md) -/

/-- R68: LD Vx, nn. -/
def Obligations.LdVxNnWritesImmediate : Prop :=
  ∀ (x : Reg) (nn : Byte) (s : State), decode (0x6#4 ++ x ++ nn) = .ok (.ldVxNn x nn) ∧
    ∃ t, exec (.ldVxNn x nn) s = .next t ∧ t.reg x = nn ∧ t.pc = s.pc + 2 ∧ t.result = some .ok ∧ OnlyRegs [x] s t

/-- R69: ADD Vx, nn, modulo 256 and without a flag. -/
def Obligations.AddVxNnWrapsWithoutFlag : Prop :=
  ∀ (x : Reg) (nn : Byte) (s : State), decode (0x7#4 ++ x ++ nn) = .ok (.addVxNn x nn) ∧
    ∃ t, exec (.addVxNn x nn) s = .next t ∧ (t.reg x).toNat = ((s.reg x).toNat + nn.toNat) % 256 ∧
      t.pc = s.pc + 2 ∧ t.result = some .ok ∧ OnlyRegs [x] s t

/-- R70, R71, R72, R73 (D6): assign, OR, AND and XOR leave VF unchanged unless it is the destination. -/
def Obligations.LogicGroupLeavesVf : Prop :=
  ∀ (x y : Reg) (s : State),
    decode (0x8#4 ++ x ++ y ++ 0x0#4) = .ok (.ldVxVy x y) ∧ decode (0x8#4 ++ x ++ y ++ 0x1#4) = .ok (.orVxVy x y) ∧
    decode (0x8#4 ++ x ++ y ++ 0x2#4) = .ok (.andVxVy x y) ∧ decode (0x8#4 ++ x ++ y ++ 0x3#4) = .ok (.xorVxVy x y) ∧
    (∃ t, exec (.ldVxVy x y) s = .next t ∧ t.reg x = s.reg y ∧ t.pc = s.pc + 2 ∧ t.result = some .ok ∧
      OnlyRegs [x] s t) ∧
    (∃ t, exec (.orVxVy x y) s = .next t ∧ t.reg x = s.reg x ||| s.reg y ∧ t.pc = s.pc + 2 ∧ t.result = some .ok ∧
      OnlyRegs [x] s t) ∧
    (∃ t, exec (.andVxVy x y) s = .next t ∧ t.reg x = s.reg x &&& s.reg y ∧ t.pc = s.pc + 2 ∧ t.result = some .ok ∧
      OnlyRegs [x] s t) ∧
    (∃ t, exec (.xorVxVy x y) s = .next t ∧ t.reg x = s.reg x ^^^ s.reg y ∧ t.pc = s.pc + 2 ∧ t.result = some .ok ∧
      OnlyRegs [x] s t)

/-- R74 (D7 for the order of reads and writes): ADD Vx, Vy. The sum modulo 256; VF the carry,
unless `x = F`, where the result stays. -/
def Obligations.AddVxVySetsCarry : Prop :=
  ∀ (x y : Reg) (s : State), decode (0x8#4 ++ x ++ y ++ 0x4#4) = .ok (.addVxVy x y) ∧
    ∃ t, exec (.addVxVy x y) s = .next t ∧ (t.reg x).toNat = ((s.reg x).toNat + (s.reg y).toNat) % 256 ∧
      (x ≠ 0xF → t.reg 0xF = if 255 < (s.reg x).toNat + (s.reg y).toNat then 1 else 0) ∧
      t.pc = s.pc + 2 ∧ t.result = some .ok ∧ OnlyRegs [x, 0xF] s t

/-- R75 (D7): SUB Vx, Vy. The difference modulo 256; VF is 1 when no borrow occurs, unless `x = F`, where the result stays. -/
def Obligations.SubVxVySetsNoBorrow : Prop :=
  ∀ (x y : Reg) (s : State), decode (0x8#4 ++ x ++ y ++ 0x5#4) = .ok (.subVxVy x y) ∧
    ∃ t, exec (.subVxVy x y) s = .next t ∧ (t.reg x).toNat = ((s.reg x).toNat + 256 - (s.reg y).toNat) % 256 ∧
      (x ≠ 0xF → t.reg 0xF = if (s.reg y).toNat ≤ (s.reg x).toNat then 1 else 0) ∧
      t.pc = s.pc + 2 ∧ t.result = some .ok ∧ OnlyRegs [x, 0xF] s t

/-- R76 (D7): SHR Vx, whatever `y`. VF is old bit 0, unless `x = F`, where the result stays. -/
def Obligations.ShrVxShiftsOutBitZero : Prop :=
  ∀ (x y : Reg) (s : State), decode (0x8#4 ++ x ++ y ++ 0x6#4) = .ok (.shrVx x y) ∧
    ∃ t, exec (.shrVx x y) s = .next t ∧ (t.reg x).toNat = (s.reg x).toNat / 2 ∧
      (x ≠ 0xF → (t.reg 0xF).toNat = (s.reg x).toNat % 2) ∧
      t.pc = s.pc + 2 ∧ t.result = some .ok ∧ OnlyRegs [x, 0xF] s t

/-- R77 (D7): SUBN Vx, Vy. The difference modulo 256; VF is 1 when no borrow occurs, unless `x = F`, where the result stays. -/
def Obligations.SubnVxVySetsNoBorrow : Prop :=
  ∀ (x y : Reg) (s : State), decode (0x8#4 ++ x ++ y ++ 0x7#4) = .ok (.subnVxVy x y) ∧
    ∃ t, exec (.subnVxVy x y) s = .next t ∧ (t.reg x).toNat = ((s.reg y).toNat + 256 - (s.reg x).toNat) % 256 ∧
      (x ≠ 0xF → t.reg 0xF = if (s.reg x).toNat ≤ (s.reg y).toNat then 1 else 0) ∧
      t.pc = s.pc + 2 ∧ t.result = some .ok ∧ OnlyRegs [x, 0xF] s t

/-- R78 (D7): SHL Vx, whatever `y`. VF is old bit 7, unless `x = F`, where the result stays. -/
def Obligations.ShlVxShiftsOutBitSeven : Prop :=
  ∀ (x y : Reg) (s : State), decode (0x8#4 ++ x ++ y ++ 0xE#4) = .ok (.shlVx x y) ∧
    ∃ t, exec (.shlVx x y) s = .next t ∧ (t.reg x).toNat = (s.reg x).toNat * 2 % 256 ∧
      (x ≠ 0xF → (t.reg 0xF).toNat = (s.reg x).toNat / 128) ∧
      t.pc = s.pc + 2 ∧ t.result = some .ok ∧ OnlyRegs [x, 0xF] s t

/-- R79 (D25): RND Vx, nn. The draw is the input of the cycle: a free value or the host's `r`, and this holds for each. -/
def Obligations.RndVxNnMasksDraw : Prop :=
  ∀ (x : Reg) (nn : Byte) (s : State), decode (0xC#4 ++ x ++ nn) = .ok (.rndVxNn x nn) ∧
    ∃ t, exec (.rndVxNn x nn) s = .next t ∧ t.reg x = s.draw &&& nn ∧ t.pc = s.pc + 2 ∧ t.result = some .ok ∧
      OnlyRegs [x] s t

/-! ### Index register and memory (44_index_memory.md) -/

/-- R81: LD I, nnn. -/
def Obligations.LdINnnSetsIndex : Prop :=
  ∀ (nnn : Addr12) (s : State), decode (0xA#4 ++ nnn) = .ok (.ldINnn nnn) ∧
    ∃ t, exec (.ldINnn nnn) s = .next t ∧ t.i.toNat = nnn.toNat ∧ t.pc = s.pc + 2 ∧ t.result = some .ok ∧ OnlyIndex s t

/-- R82 (D9): ADD I, Vx, masked to 12 bits, VF not written. -/
def Obligations.AddIVxMasksTo12Bits : Prop :=
  ∀ (x : Reg) (s : State), decode (0xF#4 ++ x ++ 0x1E#8) = .ok (.addIVx x) ∧
    ∃ t, exec (.addIVx x) s = .next t ∧ t.i.toNat = (s.i.toNat + (s.reg x).toNat) % 0x1000 ∧ t.pc = s.pc + 2 ∧
      t.result = some .ok ∧ OnlyIndex s t

/-- R83 (D1, D10): LD F, Vx. `I` is the address of the glyph of the low nibble. -/
def Obligations.LdFVxPointsAtGlyph : Prop :=
  ∀ (x : Reg) (s : State), decode (0xF#4 ++ x ++ 0x29#8) = .ok (.ldFVx x) ∧
    ∃ t, exec (.ldFVx x) s = .next t ∧ t.i.toNat = 0x050 + 5 * ((s.reg x).toNat % 16) ∧ t.pc = s.pc + 2 ∧
      t.result = some .ok ∧ OnlyIndex s t

/-- R84 (D12, D15): LD B, Vx. The three digits, hundreds at `I`; out of bounds, the condition and no store. -/
def Obligations.LdBVxStoresDigits : Prop :=
  ∀ (x : Reg) (s : State), s.mem.wf = true → decode (0xF#4 ++ x ++ 0x33#8) = .ok (.ldBVx x) ∧
    if 0xFFE ≤ s.i.toNat then Raised (.invalidMemoryAccess s.pc 0x1000) s (exec (.ldBVx x) s)
    else ∃ t, exec (.ldBVx x) s = .next t ∧
      (t.memRead s.i.toNat).map (·.toNat) = some ((s.reg x).toNat / 100) ∧
      (t.memRead (s.i.toNat + 1)).map (·.toNat) = some ((s.reg x).toNat / 10 % 10) ∧
      (t.memRead (s.i.toNat + 2)).map (·.toNat) = some ((s.reg x).toNat % 10) ∧
      t.pc = s.pc + 2 ∧ t.result = some .ok ∧ OnlyStores s.i.toNat 3 s t

/-- R85 (D8, D15): LD [I], Vx. `V[0..x]` from `I` up, `I` unchanged; out of bounds, the condition and no store. -/
def Obligations.LdMemVxDumpsRegisters : Prop :=
  ∀ (x : Reg) (s : State), s.mem.wf = true → decode (0xF#4 ++ x ++ 0x55#8) = .ok (.ldMemVx x) ∧
    if 0x1000 ≤ s.i.toNat + x.toNat then Raised (.invalidMemoryAccess s.pc 0x1000) s (exec (.ldMemVx x) s)
    else ∃ t, exec (.ldMemVx x) s = .next t ∧
      (∀ z : Reg, z ≤ x → t.memRead (s.i.toNat + z.toNat) = some (s.reg z)) ∧
      t.pc = s.pc + 2 ∧ t.result = some .ok ∧ OnlyStores s.i.toNat (x.toNat + 1) s t

/-- R86 (D8, D15): LD Vx, [I]. `V[0..x]` from `I` up, the registers above `x` and `I` unchanged; out of bounds, the
condition and no write. -/
def Obligations.LdVxMemLoadsRegisters : Prop :=
  ∀ (x : Reg) (s : State), decode (0xF#4 ++ x ++ 0x65#8) = .ok (.ldVxMem x) ∧
    if 0x1000 ≤ s.i.toNat + x.toNat then Raised (.invalidMemoryAccess s.pc 0x1000) s (exec (.ldVxMem x) s)
    else ∃ t, exec (.ldVxMem x) s = .next t ∧
      (∀ z : Reg, z ≤ x → some (t.reg z) = s.memRead (s.i.toNat + z.toNat)) ∧
      t.pc = s.pc + 2 ∧ t.result = some .ok ∧ OnlyRegs (destinations (.ldVxMem x)) s t

/-- 20_memory.md R40 (derived there): a fetch of what a register dump has just stored reads the stored bytes. -/
def Obligations.StoredCodeIsFetched : Prop :=
  ∀ (x z : Reg) (s t : State), s.mem.wf = true → s.i.toNat + x.toNat < 0x1000 → z < x →
    exec (.ldMemVx x) s = .next t →
    State.fetch { t with pc := s.i + z.zeroExtend 16 } = .ok (s.reg z ++ s.reg (z + 1))

/-! ### Keys and timers (45_keys_timers.md) -/

/-- R87, R88 (D11): SKP Vx and SKNP Vx test the key of the low nibble and consume nothing. -/
def Obligations.KeyTestsSkip : Prop :=
  ∀ (x : Reg) (s : State),
    decode (0xE#4 ++ x ++ 0x9E#8) = .ok (.skpVx x) ∧ decode (0xE#4 ++ x ++ 0xA1#8) = .ok (.sknpVx x) ∧
    (∃ t, exec (.skpVx x) s = .next t ∧ t.result = some .ok ∧ OnlyPc s t ∧
      t.pc = (if s.keys[(s.reg x).toNat % 16]? = some true then s.pc + 4 else s.pc + 2)) ∧
    (∃ t, exec (.sknpVx x) s = .next t ∧ t.result = some .ok ∧ OnlyPc s t ∧
      t.pc = (if s.keys[(s.reg x).toNat % 16]? = some true then s.pc + 2 else s.pc + 4))

/-- R89: LD Vx, DT. -/
def Obligations.LdVxDtReadsDelayTimer : Prop :=
  ∀ (x : Reg) (s : State), decode (0xF#4 ++ x ++ 0x07#8) = .ok (.ldVxDt x) ∧
    ∃ t, exec (.ldVxDt x) s = .next t ∧ t.reg x = s.dt ∧ t.pc = s.pc + 2 ∧ t.result = some .ok ∧ OnlyRegs [x] s t

/-- R90: LD DT, Vx. -/
def Obligations.LdDtVxSetsDelayTimer : Prop :=
  ∀ (x : Reg) (s : State), decode (0xF#4 ++ x ++ 0x15#8) = .ok (.ldDtVx x) ∧
    ∃ t, exec (.ldDtVx x) s = .next t ∧ t.dt = s.reg x ∧ t.st = s.st ∧ t.pc = s.pc + 2 ∧ t.result = some .ok ∧
      OnlyTimers s t

/-- R91 (D24 for `SOUND_ACTIVE`): LD ST, Vx; a nonzero value sets `SOUND_ACTIVE` at once, and zero silences it at once. -/
def Obligations.LdStVxSetsSoundTimer : Prop :=
  ∀ (x : Reg) (s : State), decode (0xF#4 ++ x ++ 0x18#8) = .ok (.ldStVx x) ∧
    ∃ t, exec (.ldStVx x) s = .next t ∧ t.st = s.reg x ∧ t.dt = s.dt ∧ (t.soundActive = true ↔ s.reg x ≠ 0) ∧
      t.pc = s.pc + 2 ∧ t.result = some .ok ∧ OnlyTimers s t

/-- R92 (D21): LD Vx, K begins a wait: `PC` stays, the edge latch is cleared, the cycle returns `Awaiting`. -/
def Obligations.LdVxKBeginsWait : Prop :=
  ∀ (x : Reg) (s : State), decode (0xF#4 ++ x ++ 0x0A#8) = .ok (.ldVxK x) ∧
    ∃ t, exec (.ldVxK x) s = .next t ∧ t.wait = some x ∧ t.edge = none ∧ t.pc = s.pc ∧ t.result = some .awaiting ∧
      OnlyWaitAndRegs [] s t

/-- R93 (D21, D35): while a wait is pending a cycle does not fetch: an edge completes the wait, and without one nothing
changes. -/
def Obligations.PollCompletesOnEdge : Prop :=
  ∀ (x : Reg) (s : State), s.wait = some x →
    (∀ k, s.edge = some k → ∃ t, runCycle s = .next t ∧ (t.reg x).toNat = k.toNat ∧ t.wait = none ∧ t.edge = none ∧
      t.pc = s.pc + 2 ∧ t.result = some .ok ∧ OnlyWaitAndRegs [x] s t) ∧
    (s.edge = none → runCycle s = .next { s with result := some .awaiting })

/-- R109 (D21): a key-wait is left only by `RESET`, or by a cycle with a key edge latched, which stores the key code. -/
def Obligations.WaitEndsByPressOrReset : Prop :=
  ∀ (c : Command) (s t : State) (x : Reg), s.wait = some x → perform c s = .next t → t.wait ≠ some x →
    c = .reset ∨ ((∃ r, c = .cycle r) ∧ ∃ k, s.edge = some k ∧ (t.reg x).toNat = k.toNat)

/-- R93 (D21): with no key press the wait goes on, however many cycles run. (With no command pending each step is a cycle,
log entry 3.) -/
def Obligations.WaitHoldsWithoutPress : Prop :=
  ∀ (n : Nat) (s : State) (x : Reg), s.pending = [] → s.wait = some x → s.edge = none →
    ∃ t, Sys2Proof.core.run n s = .next t ∧ t = { s with draw := t.draw, draws := s.draws + n, result := t.result }

/-! ### The host's commands (60_exceptions.md, 70_reset_and_hazards.md) -/

/-- R100 (D22, D24): TICK decrements each nonzero timer by one, samples the tone before, and changes nothing else, whether or
not a wait is pending. -/
def Obligations.TickDecrementsTimers : Prop :=
  ∀ s : State, ∃ t, perform .tick s = .next t ∧ t.dt.toNat = s.dt.toNat - 1 ∧ t.st.toNat = s.st.toNat - 1 ∧
    t.result = some (.tone (decide (s.st ≠ 0))) ∧ t.pc = s.pc ∧ OnlyTimers s t

/-- R100, 95_test_vectors.md S9: `n` ticks take `n` off each timer, and a timer stays at 0. -/
def Obligations.TicksSaturateAtZero : Prop :=
  ∀ (n : Nat) (s : State),
    (commandTick^[n] s).dt.toNat = s.dt.toNat - n ∧ (commandTick^[n] s).st.toNat = s.st.toNat - n

/-- R104 (D21): SET_KEY sets the latch bit, and latches the first fresh key-down edge of a pending wait. -/
def Obligations.SetKeyLatchesFirstEdge : Prop :=
  ∀ (k : Key) (p : Bool) (s : State), ∃ t, perform (.setKey k p) s = .next t ∧ t.keyPressed k = p ∧
    (∀ j, j ≠ k → t.keyPressed j = s.keyPressed j) ∧
    t.edge = (if p = true ∧ s.keyPressed k = false ∧ s.wait ≠ none ∧ s.edge = none then some k else s.edge) ∧
    t.wait = s.wait ∧ t.pc = s.pc ∧ t.result = none ∧
    RegsKept [] s t ∧ MemoryKept s t ∧ IndexKept s t ∧ StackKept s t ∧ TimersKept s t ∧ FrameBufferKept s t ∧
    PortsKept s t

/-- R111 and 10_state.md R28, R13 (D1, D2, D23): RESET, element by element; `KEYS` is unchanged. That it keeps the model's own
input ports `draw`, `draws` and `pending` is the model's choice (log entry 4). -/
def Obligations.ResetCommandSetsEveryElement : Prop :=
  ∀ s : State, ∃ t, perform .reset s = .next t ∧
    (∀ d k, d < 16 → k < 5 → t.memRead (0x050 + 5 * d + k) = (glyphTable[d]?).bind (·[k]?)) ∧
    (∀ a, a < 0x1000 → (a < 0x050 ∨ 0x0A0 ≤ a) → t.memRead a = some 0) ∧
    (∀ z, t.reg z = 0) ∧ t.i = 0 ∧ t.pc = 0x200 ∧ (∀ j, j < 16 → t.stack[j]? = some 0) ∧ t.sp.val = 0 ∧ t.dt = 0 ∧
    t.st = 0 ∧ (∀ row col, t.lit row col = false) ∧ t.wait = none ∧ t.edge = none ∧
    t.result = none ∧ KeysKept s t ∧ PortsKept s t

/-- R112 (D23): the state at construction is the state after RESET, with every key released. For the model's own fields
`result`, `draw`, `draws` and `pending` the equality rests on the model's choice of their values (log entry 4). -/
def Obligations.ConstructionIsResetState : Prop :=
  (∀ k, State.reset.keyPressed k = false) ∧ perform .reset State.reset = .next State.reset

/-- R113 (D33): LOAD copies an image of at most 3584 bytes to 0x200 and writes nothing else; a longer one is refused with
nothing written. -/
def Obligations.LoadCopiesImageOrRefuses : Prop :=
  ∀ (image : List Byte) (s : State), s.mem.wf = true →
    if image.length ≤ 3584 then
      ∃ t, perform (.load image) s = .next t ∧ (∀ k, k < image.length → t.memRead (0x200 + k) = image[k]?) ∧
        t.pc = s.pc ∧ t.result = some .ok ∧ OnlyStores 0x200 image.length s t
    else perform (.load image) s = .next { s with result := some (.imageTooLarge image.length) }

/-- 10_state.md R27: only SET_KEY writes KEYS, and only CYCLE, LOAD and RESET write memory. -/
def Obligations.KeysWrittenBySetKeyOnly : Prop :=
  ∀ (c : Command) (s t : State), perform c s = .next t →
    ((∀ k p, c ≠ .setKey k p) → KeysKept s t) ∧ (c = .tick ∨ (∃ k p, c = .setKey k p) → MemoryKept s t)

/-! ### Invariants -/

/-- 10_state.md R16 and R25, and the canonical form of the memory: every step keeps the invariant. -/
def Obligations.StepKeepsInv : Prop :=
  ∀ s t : State, s.Inv → step s = .next t → t.Inv

/-- The invariant holds at construction. -/
def Obligations.ResetStateHasInv : Prop :=
  State.reset.Inv

/-- 10_state.md R18 (D34): no instruction can read a stack entry at or above `SP`. Two states that differ in such entries
alone step to states that differ in such entries alone. -/
def Obligations.DeadStackUnobservable : Prop :=
  ∀ s s' t : State, AgreeButDeadStack s s' → step s = .next t → ∃ t', step s' = .next t' ∧ AgreeButDeadStack t t'
end

