-- ==== Sys2Proof/Laws/State.lean ====
section
/-! SUPPORT. One lemma per field per update of the state, so that no later proof unfolds a record update. -/

namespace Sys2Proof.Machine

/-! ### `State.setReg` -/

@[simp] theorem State.setReg_mem (s : State) (x : Reg) (b : Byte) : (s.setReg x b).mem = s.mem := rfl
@[simp] theorem State.setReg_i (s : State) (x : Reg) (b : Byte) : (s.setReg x b).i = s.i := rfl
@[simp] theorem State.setReg_pc (s : State) (x : Reg) (b : Byte) : (s.setReg x b).pc = s.pc := rfl
@[simp] theorem State.setReg_stack (s : State) (x : Reg) (b : Byte) : (s.setReg x b).stack = s.stack := rfl
@[simp] theorem State.setReg_sp (s : State) (x : Reg) (b : Byte) : (s.setReg x b).sp = s.sp := rfl
@[simp] theorem State.setReg_dt (s : State) (x : Reg) (b : Byte) : (s.setReg x b).dt = s.dt := rfl
@[simp] theorem State.setReg_st (s : State) (x : Reg) (b : Byte) : (s.setReg x b).st = s.st := rfl
@[simp] theorem State.setReg_fb (s : State) (x : Reg) (b : Byte) : (s.setReg x b).fb = s.fb := rfl
@[simp] theorem State.setReg_keys (s : State) (x : Reg) (b : Byte) : (s.setReg x b).keys = s.keys := rfl
@[simp] theorem State.setReg_wait (s : State) (x : Reg) (b : Byte) : (s.setReg x b).wait = s.wait := rfl
@[simp] theorem State.setReg_edge (s : State) (x : Reg) (b : Byte) : (s.setReg x b).edge = s.edge := rfl
@[simp] theorem State.setReg_result (s : State) (x : Reg) (b : Byte) : (s.setReg x b).result = s.result := rfl
@[simp] theorem State.setReg_draw (s : State) (x : Reg) (b : Byte) : (s.setReg x b).draw = s.draw := rfl
@[simp] theorem State.setReg_draws (s : State) (x : Reg) (b : Byte) : (s.setReg x b).draws = s.draws := rfl
@[simp] theorem State.setReg_pending (s : State) (x : Reg) (b : Byte) : (s.setReg x b).pending = s.pending := rfl

/-! ### `State.writeBlock` -/

@[simp] theorem State.writeBlock_v (s : State) (base : Nat) (bs : List Byte) : (s.writeBlock base bs).v = s.v := rfl
@[simp] theorem State.writeBlock_i (s : State) (base : Nat) (bs : List Byte) : (s.writeBlock base bs).i = s.i := rfl
@[simp] theorem State.writeBlock_pc (s : State) (base : Nat) (bs : List Byte) : (s.writeBlock base bs).pc = s.pc := rfl
@[simp] theorem State.writeBlock_stack (s : State) (base : Nat) (bs : List Byte) : (s.writeBlock base bs).stack = s.stack := rfl
@[simp] theorem State.writeBlock_sp (s : State) (base : Nat) (bs : List Byte) : (s.writeBlock base bs).sp = s.sp := rfl
@[simp] theorem State.writeBlock_dt (s : State) (base : Nat) (bs : List Byte) : (s.writeBlock base bs).dt = s.dt := rfl
@[simp] theorem State.writeBlock_st (s : State) (base : Nat) (bs : List Byte) : (s.writeBlock base bs).st = s.st := rfl
@[simp] theorem State.writeBlock_fb (s : State) (base : Nat) (bs : List Byte) : (s.writeBlock base bs).fb = s.fb := rfl
@[simp] theorem State.writeBlock_keys (s : State) (base : Nat) (bs : List Byte) : (s.writeBlock base bs).keys = s.keys := rfl
@[simp] theorem State.writeBlock_wait (s : State) (base : Nat) (bs : List Byte) : (s.writeBlock base bs).wait = s.wait := rfl
@[simp] theorem State.writeBlock_edge (s : State) (base : Nat) (bs : List Byte) : (s.writeBlock base bs).edge = s.edge := rfl
@[simp] theorem State.writeBlock_result (s : State) (base : Nat) (bs : List Byte) : (s.writeBlock base bs).result = s.result := rfl
@[simp] theorem State.writeBlock_draw (s : State) (base : Nat) (bs : List Byte) : (s.writeBlock base bs).draw = s.draw := rfl
@[simp] theorem State.writeBlock_draws (s : State) (base : Nat) (bs : List Byte) : (s.writeBlock base bs).draws = s.draws := rfl
@[simp] theorem State.writeBlock_pending (s : State) (base : Nat) (bs : List Byte) : (s.writeBlock base bs).pending = s.pending := rfl

/-! ### `State.push` -/

@[simp] theorem State.push_mem (s : State) (w : Word) (room : s.sp.val < 16) : (s.push w room).mem = s.mem := rfl
@[simp] theorem State.push_v (s : State) (w : Word) (room : s.sp.val < 16) : (s.push w room).v = s.v := rfl
@[simp] theorem State.push_i (s : State) (w : Word) (room : s.sp.val < 16) : (s.push w room).i = s.i := rfl
@[simp] theorem State.push_pc (s : State) (w : Word) (room : s.sp.val < 16) : (s.push w room).pc = s.pc := rfl
@[simp] theorem State.push_dt (s : State) (w : Word) (room : s.sp.val < 16) : (s.push w room).dt = s.dt := rfl
@[simp] theorem State.push_st (s : State) (w : Word) (room : s.sp.val < 16) : (s.push w room).st = s.st := rfl
@[simp] theorem State.push_fb (s : State) (w : Word) (room : s.sp.val < 16) : (s.push w room).fb = s.fb := rfl
@[simp] theorem State.push_keys (s : State) (w : Word) (room : s.sp.val < 16) : (s.push w room).keys = s.keys := rfl
@[simp] theorem State.push_wait (s : State) (w : Word) (room : s.sp.val < 16) : (s.push w room).wait = s.wait := rfl
@[simp] theorem State.push_edge (s : State) (w : Word) (room : s.sp.val < 16) : (s.push w room).edge = s.edge := rfl
@[simp] theorem State.push_result (s : State) (w : Word) (room : s.sp.val < 16) : (s.push w room).result = s.result := rfl
@[simp] theorem State.push_draw (s : State) (w : Word) (room : s.sp.val < 16) : (s.push w room).draw = s.draw := rfl
@[simp] theorem State.push_draws (s : State) (w : Word) (room : s.sp.val < 16) : (s.push w room).draws = s.draws := rfl
@[simp] theorem State.push_pending (s : State) (w : Word) (room : s.sp.val < 16) : (s.push w room).pending = s.pending := rfl

/-! ### `State.drop` -/

@[simp] theorem State.drop_mem (s : State) : (s.drop).mem = s.mem := rfl
@[simp] theorem State.drop_v (s : State) : (s.drop).v = s.v := rfl
@[simp] theorem State.drop_i (s : State) : (s.drop).i = s.i := rfl
@[simp] theorem State.drop_pc (s : State) : (s.drop).pc = s.pc := rfl
@[simp] theorem State.drop_stack (s : State) : (s.drop).stack = s.stack := rfl
@[simp] theorem State.drop_dt (s : State) : (s.drop).dt = s.dt := rfl
@[simp] theorem State.drop_st (s : State) : (s.drop).st = s.st := rfl
@[simp] theorem State.drop_fb (s : State) : (s.drop).fb = s.fb := rfl
@[simp] theorem State.drop_keys (s : State) : (s.drop).keys = s.keys := rfl
@[simp] theorem State.drop_wait (s : State) : (s.drop).wait = s.wait := rfl
@[simp] theorem State.drop_edge (s : State) : (s.drop).edge = s.edge := rfl
@[simp] theorem State.drop_result (s : State) : (s.drop).result = s.result := rfl
@[simp] theorem State.drop_draw (s : State) : (s.drop).draw = s.draw := rfl
@[simp] theorem State.drop_draws (s : State) : (s.drop).draws = s.draws := rfl
@[simp] theorem State.drop_pending (s : State) : (s.drop).pending = s.pending := rfl

/-! ### What the changed fields hold -/

@[simp] theorem State.setReg_v (s : State) (x : Reg) (b : Byte) : (s.setReg x b).v = s.v.set x.toNat b x.isLt := rfl
@[simp] theorem State.writeBlock_mem (s : State) (base : Nat) (bs : List Byte) :
    (s.writeBlock base bs).mem = memPutBlock s.mem base bs := rfl
@[simp] theorem State.push_stack (s : State) (w : Word) (room : s.sp.val < 16) :
    (s.push w room).stack = s.stack.set s.sp.val w room := rfl
@[simp] theorem State.push_sp (s : State) (w : Word) (room : s.sp.val < 16) :
    (s.push w room).sp.val = s.sp.val + 1 := rfl
@[simp] theorem State.drop_sp (s : State) : s.drop.sp.val = s.sp.val - 1 := rfl

/-! ### `State.setRegsFrom` writes registers only -/

@[simp] theorem State.setRegsFrom_mem (s : State) (k : Nat) (bs : List Byte) :
    (s.setRegsFrom k bs).mem = s.mem := by
  induction bs generalizing s k with
  | nil => rfl
  | cons b bs ih => simp [State.setRegsFrom, ih]
@[simp] theorem State.setRegsFrom_i (s : State) (k : Nat) (bs : List Byte) :
    (s.setRegsFrom k bs).i = s.i := by
  induction bs generalizing s k with
  | nil => rfl
  | cons b bs ih => simp [State.setRegsFrom, ih]
@[simp] theorem State.setRegsFrom_pc (s : State) (k : Nat) (bs : List Byte) :
    (s.setRegsFrom k bs).pc = s.pc := by
  induction bs generalizing s k with
  | nil => rfl
  | cons b bs ih => simp [State.setRegsFrom, ih]
@[simp] theorem State.setRegsFrom_stack (s : State) (k : Nat) (bs : List Byte) :
    (s.setRegsFrom k bs).stack = s.stack := by
  induction bs generalizing s k with
  | nil => rfl
  | cons b bs ih => simp [State.setRegsFrom, ih]
@[simp] theorem State.setRegsFrom_sp (s : State) (k : Nat) (bs : List Byte) :
    (s.setRegsFrom k bs).sp = s.sp := by
  induction bs generalizing s k with
  | nil => rfl
  | cons b bs ih => simp [State.setRegsFrom, ih]
@[simp] theorem State.setRegsFrom_dt (s : State) (k : Nat) (bs : List Byte) :
    (s.setRegsFrom k bs).dt = s.dt := by
  induction bs generalizing s k with
  | nil => rfl
  | cons b bs ih => simp [State.setRegsFrom, ih]
@[simp] theorem State.setRegsFrom_st (s : State) (k : Nat) (bs : List Byte) :
    (s.setRegsFrom k bs).st = s.st := by
  induction bs generalizing s k with
  | nil => rfl
  | cons b bs ih => simp [State.setRegsFrom, ih]
@[simp] theorem State.setRegsFrom_fb (s : State) (k : Nat) (bs : List Byte) :
    (s.setRegsFrom k bs).fb = s.fb := by
  induction bs generalizing s k with
  | nil => rfl
  | cons b bs ih => simp [State.setRegsFrom, ih]
@[simp] theorem State.setRegsFrom_keys (s : State) (k : Nat) (bs : List Byte) :
    (s.setRegsFrom k bs).keys = s.keys := by
  induction bs generalizing s k with
  | nil => rfl
  | cons b bs ih => simp [State.setRegsFrom, ih]
@[simp] theorem State.setRegsFrom_wait (s : State) (k : Nat) (bs : List Byte) :
    (s.setRegsFrom k bs).wait = s.wait := by
  induction bs generalizing s k with
  | nil => rfl
  | cons b bs ih => simp [State.setRegsFrom, ih]
@[simp] theorem State.setRegsFrom_edge (s : State) (k : Nat) (bs : List Byte) :
    (s.setRegsFrom k bs).edge = s.edge := by
  induction bs generalizing s k with
  | nil => rfl
  | cons b bs ih => simp [State.setRegsFrom, ih]
@[simp] theorem State.setRegsFrom_result (s : State) (k : Nat) (bs : List Byte) :
    (s.setRegsFrom k bs).result = s.result := by
  induction bs generalizing s k with
  | nil => rfl
  | cons b bs ih => simp [State.setRegsFrom, ih]
@[simp] theorem State.setRegsFrom_draw (s : State) (k : Nat) (bs : List Byte) :
    (s.setRegsFrom k bs).draw = s.draw := by
  induction bs generalizing s k with
  | nil => rfl
  | cons b bs ih => simp [State.setRegsFrom, ih]
@[simp] theorem State.setRegsFrom_draws (s : State) (k : Nat) (bs : List Byte) :
    (s.setRegsFrom k bs).draws = s.draws := by
  induction bs generalizing s k with
  | nil => rfl
  | cons b bs ih => simp [State.setRegsFrom, ih]
@[simp] theorem State.setRegsFrom_pending (s : State) (k : Nat) (bs : List Byte) :
    (s.setRegsFrom k bs).pending = s.pending := by
  induction bs generalizing s k with
  | nil => rfl
  | cons b bs ih => simp [State.setRegsFrom, ih]

/-! ### Reading a part depends on its field only -/

theorem State.reg_congr {s t : State} (h : t.v = s.v) (z : Reg) : t.reg z = s.reg z := by
  simp [State.reg, h]
theorem State.memRead_congr {s t : State} (h : t.mem = s.mem) (a : Nat) : t.memRead a = s.memRead a := by
  simp [State.memRead, h]
theorem State.lit_congr {s t : State} (h : t.fb = s.fb) (row : Fin 32) (col : Fin 64) : t.lit row col = s.lit row col := by
  simp [State.lit, h]
theorem State.keyPressed_congr {s t : State} (h : t.keys = s.keys) (k : Key) : t.keyPressed k = s.keyPressed k := by
  simp [State.keyPressed, h]

/-- Of a state that differs from `s` in other fields only, the frame `OnlyRegs` holds as soon as its registers do. -/
theorem onlyRegs_of_fields {xs : List Reg} {s t : State} (hv : RegsKept xs s t) (hmem : t.mem = s.mem) (hi : t.i = s.i)
    (hstack : t.stack = s.stack) (hsp : t.sp = s.sp) (hdt : t.dt = s.dt) (hst : t.st = s.st) (hfb : t.fb = s.fb)
    (hkeys : t.keys = s.keys) (hwait : t.wait = s.wait) (hedge : t.edge = s.edge) (hdraw : t.draw = s.draw)
    (hdraws : t.draws = s.draws) (hpending : t.pending = s.pending) : OnlyRegs xs s t :=
  ⟨hv, State.memRead_congr hmem, hi, ⟨hstack, hsp⟩, ⟨hdt, hst⟩, State.lit_congr hfb, State.keyPressed_congr hkeys,
    ⟨hwait, hedge⟩, ⟨hdraw, hdraws, hpending⟩⟩

end Sys2Proof.Machine
end

