-- ==== Sys2Proof/Laws/Memory.lean ====
section
/-! SUPPORT. What the memory operations do: a read after a write, and that every operation keeps the canonical form. -/

namespace Sys2Proof.Machine

theorem memWfFrom_mono {lo lo' : Nat} (h : lo' ≤ lo) {m : Memory} (hm : memWfFrom lo m = true) :
    memWfFrom lo' m = true := by
  cases m with
  | nil => rfl
  | cons c rest =>
    simp only [memWfFrom, Bool.and_eq_true, decide_eq_true_eq] at hm ⊢
    exact ⟨⟨⟨Nat.le_trans h hm.1.1.1, hm.1.1.2⟩, hm.1.2⟩, hm.2⟩

/-- A memory listed from above `a` on reads the reset contents at `a`. -/
theorem memGet_below {lo a : Nat} {m : Memory} (hm : memWfFrom lo m = true) (h : a < lo) : memGet m a = resetByte a := by
  induction m generalizing lo with
  | nil => rfl
  | cons c rest ih =>
    obtain ⟨a', b'⟩ := c
    simp only [memWfFrom, Bool.and_eq_true, decide_eq_true_eq] at hm
    rw [memGet, if_neg (by omega), ih hm.2 (by omega)]

/-- A write keeps the canonical form (20_memory.md R29: the address exists). -/
theorem memPut_wfFrom {lo a : Nat} {m : Memory} (b : Byte) (hm : memWfFrom lo m = true) (hlo : lo ≤ a)
    (ha : a < Config.memSize) : memWfFrom lo (memPut m a b) = true := by
  induction m generalizing lo with
  | nil =>
    simp only [memPut]
    split
    · rfl
    · next hb => simp [memWfFrom, hlo, ha, hb]
  | cons c rest ih =>
    obtain ⟨a', b'⟩ := c
    have hw := hm
    simp only [memWfFrom, Bool.and_eq_true, decide_eq_true_eq] at hm
    obtain ⟨⟨⟨h1, h2⟩, h3⟩, h4⟩ := hm
    simp only [memPut]
    split
    · next hlt =>
      split
      · exact hw
      · next hb =>
        simp only [memWfFrom, Bool.and_eq_true, decide_eq_true_eq, bne_iff_ne, ne_eq]
        exact ⟨⟨⟨hlo, ha⟩, hb⟩, ⟨⟨hlt, h2⟩, by simpa using h3⟩, h4⟩
    · split
      · next hge heq =>
        subst heq
        split
        · exact memWfFrom_mono (by omega) h4
        · next hb => simp [memWfFrom, hlo, ha, hb, h4]
      · simp only [memWfFrom, Bool.and_eq_true, decide_eq_true_eq]
        exact ⟨⟨⟨h1, h2⟩, h3⟩, ih h4 (by omega)⟩

theorem memPut_wf {m : Memory} (hm : m.wf = true) {a : Nat} (ha : a < Config.memSize) (b : Byte) :
    Memory.wf (memPut m a b) = true :=
  memPut_wfFrom b hm (Nat.zero_le a) ha

/-- A read after a write to the same address gives the value written. -/
theorem memGet_memPut_same {lo : Nat} {m : Memory} (hm : memWfFrom lo m = true) (a : Nat) (b : Byte) :
    memGet (memPut m a b) a = b := by
  induction m generalizing lo with
  | nil =>
    simp only [memPut]
    split
    · next hb => rw [hb]; rfl
    · simp [memGet]
  | cons c rest ih =>
    obtain ⟨a', b'⟩ := c
    simp only [memWfFrom, Bool.and_eq_true, decide_eq_true_eq] at hm
    simp only [memPut]
    split
    · next hlt =>
      split
      · next hb => rw [hb, memGet, if_neg (by omega)]; exact memGet_below hm.2 (by omega)
      · simp [memGet]
    · split
      · next heq =>
        subst heq
        split
        · next hb => rw [hb]; exact memGet_below hm.2 (by omega)
        · simp [memGet]
      · next hne => rw [memGet, if_neg hne]; exact ih hm.2

/-- A write leaves every other address alone. -/
theorem memGet_memPut_ne {lo : Nat} {m : Memory} (hm : memWfFrom lo m = true) {a a' : Nat} (b : Byte) (h : a' ≠ a) :
    memGet (memPut m a b) a' = memGet m a' := by
  induction m generalizing lo with
  | nil =>
    simp only [memPut]
    split
    · rfl
    · simp [memGet, h]
  | cons c rest ih =>
    obtain ⟨a0, b0⟩ := c
    simp only [memWfFrom, Bool.and_eq_true, decide_eq_true_eq] at hm
    simp only [memPut]
    split
    · split
      · rfl
      · simp [memGet, h]
    · split
      · next heq => subst heq; split <;> simp [memGet, h]
      · simp only [memGet]; split
        · rfl
        · exact ih hm.2

/-- The stores of one access keep the canonical form. -/
theorem memPutBlock_wf (bs : List Byte) {m : Memory} (hm : m.wf = true) (base : Nat) :
    Memory.wf (memPutBlock m base bs) = true := by
  induction bs generalizing m base with
  | nil => exact hm
  | cons b bs ih =>
    rw [memPutBlock]
    split
    · next h => exact ih (memPut_wf hm h b) (base + 1)
    · exact ih hm (base + 1)

/-- What the stores of one access leave at an address that exists: the byte stored there, or what it held. -/
theorem memGet_memPutBlock (bs : List Byte) {m : Memory} (hm : m.wf = true) (base a : Nat) (ha : a < Config.memSize) :
    memGet (memPutBlock m base bs) a =
      if h : base ≤ a ∧ a < base + bs.length then bs[a - base]'(by omega) else memGet m a := by
  induction bs generalizing m base with
  | nil => rw [dif_neg (by simp)]; rfl
  | cons b bs ih =>
    have hm' : Memory.wf (if base < Config.memSize then memPut m base b else m) = true := by
      split
      · next h => exact memPut_wf hm h b
      · exact hm
    rw [memPutBlock, ih hm' (base + 1)]
    simp only [List.length_cons]
    by_cases he : base = a
    · subst he
      rw [dif_neg (by omega), dif_pos (by omega), if_pos ha, memGet_memPut_same hm]
      simp
    · by_cases hin : base + 1 ≤ a ∧ a < base + 1 + bs.length
      · rw [dif_pos hin, dif_pos (by omega)]
        simp only [show a - base = (a - (base + 1)) + 1 by omega, List.getElem_cons_succ]
      · rw [dif_neg hin, dif_neg (by omega)]
        split
        · exact memGet_memPut_ne hm b (Ne.symm he)
        · rfl

/-- Reset memory, which lists nothing, is in the canonical form. -/
theorem memory_reset_wf : Memory.wf State.reset.mem = true := rfl

@[simp] theorem readBlock_length (s : State) (base n : Nat) : (s.readBlock base n).length = n := by
  simp [State.readBlock]

theorem readBlock_getElem (s : State) (base n k : Nat) (h : k < (s.readBlock base n).length) :
    (s.readBlock base n)[k] = memGet s.mem (base + k) := by
  simp [State.readBlock]

theorem memRead_of_lt (s : State) {a : Nat} (h : a < 0x1000) : s.memRead a = some (memGet s.mem a) := if_pos h

end Sys2Proof.Machine
end

