-- ==== Sys2Proof/Laws/Registers.lean ====
section
/-! SUPPORT. What the register operations do: a read after a write, of the same register and of another. -/

namespace Sys2Proof.Machine

@[simp] theorem reg_setReg_same (s : State) (x : Reg) (b : Byte) : (s.setReg x b).reg x = b := by
  simp [State.reg]

theorem reg_setReg_ne (s : State) {x z : Reg} (b : Byte) (h : z ≠ x) : (s.setReg x b).reg z = s.reg z := by
  have hne : x.toNat ≠ z.toNat := fun e => h (BitVec.eq_of_toNat_eq e.symm)
  simp [State.reg, Vector.getElem_set_ne _ _ hne]

theorem reg_setReg (s : State) (x z : Reg) (b : Byte) : (s.setReg x b).reg z = if z = x then b else s.reg z := by
  split
  · next h => subst h; simp
  · next h => exact reg_setReg_ne s b h

/-- What a run of register writes leaves in a register: the value at its place in the list, or what it held. -/
theorem reg_setRegsFrom (bs : List Byte) (s : State) (k : Nat) (hk : k + bs.length ≤ 16) (z : Reg) :
    (s.setRegsFrom k bs).reg z =
      if h : k ≤ z.toNat ∧ z.toNat < k + bs.length then bs[z.toNat - k]'(by omega) else s.reg z := by
  induction bs generalizing s k with
  | nil =>
    have : ¬(k ≤ z.toNat ∧ z.toNat < k + ([] : List Byte).length) := by simp
    rw [dif_neg this]; rfl
  | cons b bs ih =>
    simp only [List.length_cons] at hk
    rw [State.setRegsFrom, ih _ (k + 1) (by omega)]
    have hkn : (BitVec.ofNat 4 k).toNat = k := by simp [BitVec.toNat_ofNat]; omega
    by_cases hz : k = z.toNat
    · have : z = BitVec.ofNat 4 k := BitVec.eq_of_toNat_eq (by rw [hkn, hz])
      rw [dif_neg (by omega), dif_pos (by simp; omega)]
      subst this
      simp [hkn]
    · have hne : z ≠ BitVec.ofNat 4 k := fun e => hz (by rw [e, hkn])
      by_cases hin : k + 1 ≤ z.toNat ∧ z.toNat < k + 1 + bs.length
      · rw [dif_pos hin, dif_pos (by simp; omega)]
        simp only [show z.toNat - k = (z.toNat - (k + 1)) + 1 by omega, List.getElem_cons_succ]
      · rw [dif_neg hin, dif_neg (by simp; omega), reg_setReg_ne s b hne]

@[simp] theorem regsUpTo_length (s : State) (x : Reg) : (s.regsUpTo x).length = x.toNat + 1 := by
  have := x.isLt
  simp [State.regsUpTo]; omega

theorem regsUpTo_getElem (s : State) (x : Reg) (k : Nat) (h : k < (s.regsUpTo x).length) :
    (s.regsUpTo x)[k] = s.reg (BitVec.ofNat 4 k) := by
  have hk : k < 16 := by have := x.isLt; simp at h; omega
  simp [State.regsUpTo, State.reg, Nat.mod_eq_of_lt hk]

end Sys2Proof.Machine
end

