-- ==== Sys2Proof/Laws/Ops.lean ====
section
/-! SUPPORT. For each shared operation, what it answers: the ways an instruction ends, the bounds check, the fetch, the
frame buffer, the drawing of a sprite byte, and one lemma each for a poll and a taken command. -/

namespace Sys2Proof.Machine

/-! ### The ways an instruction ends -/

theorem jumpTo_eq (target : Word) (s : State) : jumpTo target s = .next { s with pc := target, result := some .ok } := rfl

theorem advance_eq (s : State) : advance s = .next { s with pc := s.pc + 2, result := some .ok } := rfl

theorem skipIf_eq (cond : Bool) (s : State) :
    skipIf cond s = .next { s with pc := if cond then s.pc + 4 else s.pc + 2, result := some .ok } := rfl

theorem raise_eq (c : Result) (s : State) : raise c s = .next { s with pc := s.pc + 2, result := some c } := rfl

theorem raised_raise (c : Result) (s : State) : Raised c s (raise c s) := rfl

theorem finishFlagged_eq (x : Reg) (flag b : Byte) (s : State) :
    finishFlagged x flag b s =
      .next { (s.setReg flagReg flag).setReg x b with pc := s.pc + 2, result := some .ok } := rfl

/-- After a flag-producing instruction the destination holds the result, also when it is VF (43_alu.md R67). -/
theorem reg_finishFlagged (x z : Reg) (flag b : Byte) (s : State) :
    ((s.setReg flagReg flag).setReg x b).reg z = if z = x then b else if z = flagReg then flag else s.reg z := by
  rw [reg_setReg, reg_setReg]

/-! ### The bounds check of an access through `I` -/

theorem blockOutOfBounds_iff (s : State) (n : Nat) :
    s.blockOutOfBounds n = true ↔ 0 < n ∧ 0x1000 ≤ s.i.toNat + n - 1 := by
  simp [State.blockOutOfBounds]

/-! ### The fetch -/

theorem fetch_ok {s : State} (h : s.pc.toNat ≤ 0x0FFE) :
    s.fetch = .ok (wordOfBytes (memGet s.mem s.pc.toNat) (memGet s.mem (s.pc.toNat + 1))) :=
  if_neg (by omega)

theorem fetch_outOfBounds {s : State} (h : 0x0FFE < s.pc.toNat) :
    s.fetch = .error (.invalidMemoryAccess s.pc (if 0x1000 ≤ s.pc.toNat then s.pc.toNat else s.pc.toNat + 1)) :=
  if_pos h

/-! ### The frame buffer -/

theorem pixel_flipPixel (fb : FrameBuffer) (row row' : Fin 32) (col col' : Fin 64) :
    pixel (flipPixel fb row col) row' col' = (pixel fb row' col' ^^ (decide (row' = row) && decide (col' = col))) := by
  unfold pixel flipPixel
  by_cases hr : row' = row
  · subst hr
    by_cases hc : col' = col
    · subst hc; simp
    · have : (col : Nat) ≠ col' := fun h => hc (Fin.ext h.symm)
      simp [Vector.getElem_set_ne _ _ this, hc]
  · have : (row : Nat) ≠ row' := fun h => hr (Fin.ext h.symm)
    simp [Vector.getElem_set_ne _ _ this, hr]

@[simp] theorem pixel_clearFrame (row : Fin 32) (col : Fin 64) : pixel clearFrame row col = false := by
  simp [pixel, clearFrame]

/-! ### The cycle and the commands -/

/-- What a poll does (45_keys_timers.md R93): with an edge it completes the wait, without one it only answers. -/
theorem keyWaitPoll_cases {x : Reg} {s t : State} (h : keyWaitPoll x s = .next t) :
    (∃ k, s.edge = some k ∧
      t = { s.setReg x (k.zeroExtend 8) with wait := none, edge := none, pc := s.pc + 2, result := some .ok }) ∨
    (s.edge = none ∧ t = { s with result := some .awaiting }) := by
  unfold keyWaitPoll at h
  split at h
  · next k hk =>
    exact .inl ⟨k, hk, by simpa [advance, jumpTo] using h.symm⟩
  · next hk => exact .inr ⟨hk, by simpa using h.symm⟩

/-- What a cycle does with no wait pending (40_cycle.md R49): a fetch condition, an unknown opcode, or the instruction. -/
theorem fetchDecodeExecute_cases (s : State) :
    (∃ c, s.fetch = .error c ∧ fetchDecodeExecute s = raise c s) ∨
    (∃ w e, s.fetch = .ok w ∧ decode w = .error e ∧ fetchDecodeExecute s = raise (.unknownOpcode s.pc w) s) ∨
    (∃ w ins, s.fetch = .ok w ∧ decode w = .ok ins ∧ fetchDecodeExecute s = exec ins s) := by
  unfold fetchDecodeExecute
  split
  · next c hc => exact .inl ⟨c, hc, rfl⟩
  · next w hw =>
    split
    · next e he => exact .inr (.inl ⟨w, e, hw, he, rfl⟩)
    · next ins hi => exact .inr (.inr ⟨w, ins, hw, hi, rfl⟩)

/-- With a wait pending a cycle is a poll (40_cycle.md R49). -/
theorem runCycle_waiting {s : State} {x : Reg} (h : s.wait = some x) : runCycle s = keyWaitPoll x s := by
  simp [runCycle, h]

theorem runCycle_running {s : State} (h : s.wait = none) : runCycle s = fetchDecodeExecute s := by
  simp [runCycle, h]

/-- With no wait pending, a cycle whose word decodes is the execution of the instruction. -/
theorem runCycle_decoded {s : State} {w : Word} {ins : Instr} (h : s.wait = none) (hf : s.fetch = .ok w)
    (hd : decode w = .ok ins) : runCycle s = exec ins s := by
  simp [runCycle_running h, fetchDecodeExecute, hf, hd]

/-- With no wait pending, a cycle whose word is unknown raises `UnknownOpcode`. -/
theorem runCycle_unknown {s : State} {w : Word} {e : DecodeError} (h : s.wait = none) (hf : s.fetch = .ok w)
    (hd : decode w = .error e) : Raised (.unknownOpcode s.pc w) s (runCycle s) := by
  rw [runCycle_running h, fetchDecodeExecute, hf]
  simp only [hd]
  exact raised_raise _ s

/-- With no wait pending, a cycle whose fetch is out of bounds raises its condition. -/
theorem runCycle_fetch_error {s : State} {c : Result} (h : s.wait = none) (hf : s.fetch = .error c) :
    Raised c s (runCycle s) := by
  rw [runCycle_running h, fetchDecodeExecute, hf]
  exact raised_raise c s

theorem takeCommand_nil {s : State} (h : s.pending = []) :
    takeCommand s = (.cycle (Config.draw s.draws), { s with draws := s.draws + 1 }) := by
  simp [takeCommand, h]

theorem takeCommand_cons {s : State} {c : Command} {rest : List Command} (h : s.pending = c :: rest) :
    takeCommand s = (c, { s with pending := rest }) := by
  simp [takeCommand, h]

end Sys2Proof.Machine
end

