-- ==== Sys2Proof/Laws/Exec.lean ====
section
/-! SUPPORT. The instructions with a condition, each branch said once: what `exec` answers under the test its rule makes. -/

namespace Sys2Proof.Machine

theorem exec_ret_live {s : State} (h : 0 < s.sp.val) : exec .ret s = jumpTo (s.top h) s.drop := dif_pos h

theorem exec_ret_empty {s : State} (h : s.sp.val = 0) : exec .ret s = raise (.stackUnderflow s.pc) s :=
  dif_neg (by omega)

theorem exec_call_room (nnn : Addr12) {s : State} (h : s.sp.val < 16) :
    exec (.callNnn nnn) s = jumpTo (zext16 nnn) (s.push (s.pc + 2) h) := dif_pos h

theorem exec_call_full (nnn : Addr12) {s : State} (h : s.sp.val = 16) :
    exec (.callNnn nnn) s = raise (.stackOverflow s.pc) s := dif_neg (by omega)

/-- A block of at least one byte is out of bounds when its last byte is past the array (20_memory.md R33). -/
theorem blockOutOfBounds_succ (s : State) (n : Nat) :
    s.blockOutOfBounds (n + 1) = decide (0x1000 ≤ s.i.toNat + n) := by
  simp [State.blockOutOfBounds]

theorem exec_ldBVx_in (x : Reg) {s : State} (h : s.i.toNat < 0xFFE) :
    exec (.ldBVx x) s = advance (s.writeBlock s.i.toNat (bcdDigits (s.reg x))) := by
  have hb : s.blockOutOfBounds 3 = false := by rw [blockOutOfBounds_succ]; simp; omega
  simp [exec, execLdBVx, hb]

theorem exec_ldBVx_out (x : Reg) {s : State} (h : 0xFFE ≤ s.i.toNat) :
    exec (.ldBVx x) s = raise (.invalidMemoryAccess s.pc 0x1000) s := by
  have hb : s.blockOutOfBounds 3 = true := by rw [blockOutOfBounds_succ]; simp; omega
  simp [exec, execLdBVx, hb, State.blockCondition]

theorem exec_ldMemVx_in (x : Reg) {s : State} (h : s.i.toNat + x.toNat < 0x1000) :
    exec (.ldMemVx x) s = advance (s.writeBlock s.i.toNat (s.regsUpTo x)) := by
  have hb : s.blockOutOfBounds (x.toNat + 1) = false := by rw [blockOutOfBounds_succ]; simp; omega
  simp [exec, execLdMemVx, hb]

theorem exec_ldMemVx_out (x : Reg) {s : State} (h : 0x1000 ≤ s.i.toNat + x.toNat) :
    exec (.ldMemVx x) s = raise (.invalidMemoryAccess s.pc 0x1000) s := by
  have hb : s.blockOutOfBounds (x.toNat + 1) = true := by rw [blockOutOfBounds_succ]; simp; omega
  simp [exec, execLdMemVx, hb, State.blockCondition]

theorem exec_ldVxMem_in (x : Reg) {s : State} (h : s.i.toNat + x.toNat < 0x1000) :
    exec (.ldVxMem x) s = advance (s.setRegsFrom 0 (s.readBlock s.i.toNat (x.toNat + 1))) := by
  have hb : s.blockOutOfBounds (x.toNat + 1) = false := by rw [blockOutOfBounds_succ]; simp; omega
  simp [exec, execLdVxMem, hb]

theorem exec_ldVxMem_out (x : Reg) {s : State} (h : 0x1000 ≤ s.i.toNat + x.toNat) :
    exec (.ldVxMem x) s = raise (.invalidMemoryAccess s.pc 0x1000) s := by
  have hb : s.blockOutOfBounds (x.toNat + 1) = true := by rw [blockOutOfBounds_succ]; simp; omega
  simp [exec, execLdVxMem, hb, State.blockCondition]

/-- What DRW draws (41_display.md R56), from the registers and the memory before it. -/
def State.drawn (s : State) (x y : Reg) (n : Nibble) : FrameBuffer × Bool :=
  drawRows (s.reg x) (s.reg y) 0 (s.readBlock s.i.toNat n.toNat) (s.fb, false)

theorem exec_drw_in (x y : Reg) (n : Nibble) {s : State} (h : ¬(0 < n.toNat ∧ 0x1000 < s.i.toNat + n.toNat)) :
    exec (.drwVxVyN x y n) s =
      advance (State.setReg { s with fb := (s.drawn x y n).1 } flagReg (collisionFlag (s.drawn x y n).2)) := by
  have hb : ¬s.blockOutOfBounds n.toNat = true := by rw [blockOutOfBounds_iff]; omega
  simp only [exec, execDrwVxVyN]
  rw [if_neg hb]
  rfl

theorem exec_drw_out (x y : Reg) (n : Nibble) {s : State} (h : 0 < n.toNat ∧ 0x1000 < s.i.toNat + n.toNat) :
    exec (.drwVxVyN x y n) s = raise (.invalidMemoryAccess s.pc 0x1000) s := by
  have hb : s.blockOutOfBounds n.toNat = true := by rw [blockOutOfBounds_iff]; omega
  simp only [exec, execDrwVxVyN]
  rw [if_pos hb]
  rfl

end Sys2Proof.Machine
end

