-- ==== Sys2Proof/Laws/Display.lean ====
section
/-! SUPPORT. The display's shared operations (41_display.md R56), each said once: what a sprite bit, a sprite byte and the rows
of a sprite do to a pixel and to the collision, and which pixels the sprite of a state covers. -/

namespace Sys2Proof.Machine

/-- One sprite bit inverts the pixel it lands on, and no other. -/
theorem drawBit_pixel (cx : Byte) (row : Fin 32) (sprite : Byte) (d : FrameBuffer × Bool) (c : Nat)
    (row' : Fin 32) (col : Fin 64) :
    pixel (drawBit cx row sprite d c).1 row' col =
      (pixel d.1 row' col ^^ (spriteBit sprite c && (decide (row' = row) && decide (col = spriteCol cx c)))) := by
  unfold drawBit
  split
  · next h => simp [pixel_flipPixel, h]
  · next h => simp [h]

/-- One sprite bit notes a collision when the pixel it lands on is lit. -/
theorem drawBit_collided (cx : Byte) (row : Fin 32) (sprite : Byte) (d : FrameBuffer × Bool) (c : Nat) :
    (drawBit cx row sprite d c).2 = (d.2 || (spriteBit sprite c && pixel d.1 row (spriteCol cx c))) := by
  unfold drawBit
  split
  · next h => simp [h]
  · next h => simp [h]

/-- The columns of a sprite are distinct (R56, no self-overlap). -/
theorem spriteCol_inj {cx : Byte} {c c' : Nat} (hc : c < 64) (hc' : c' < 64) (h : spriteCol cx c = spriteCol cx c') :
    c = c' := by
  have := congrArg Fin.val h
  simp only [spriteCol, Fin.val_ofNat] at this
  omega

/-- The rows of a sprite are distinct (R56, no self-overlap). -/
theorem spriteRow_inj {cy : Byte} {r r' : Nat} (hr : r < 32) (hr' : r' < 32) (h : spriteRow cy r = spriteRow cy r') :
    r = r' := by
  have := congrArg Fin.val h
  simp only [spriteRow, Fin.val_ofNat] at this
  omega

/-- The first `m` bits of a sprite byte: which pixels they invert, and when they collide. -/
theorem drawBits_spec (cx : Byte) (row : Fin 32) (sprite : Byte) (d : FrameBuffer × Bool) (m : Nat) (hm : m ≤ 8) :
    (∀ row' col, pixel ((List.range m).foldl (drawBit cx row sprite) d).1 row' col =
      (pixel d.1 row' col ^^
        decide (row' = row ∧ ∃ c, c < m ∧ spriteBit sprite c = true ∧ col = spriteCol cx c))) ∧
    (((List.range m).foldl (drawBit cx row sprite) d).2 = true ↔
      d.2 = true ∨ ∃ c, c < m ∧ spriteBit sprite c = true ∧ pixel d.1 row (spriteCol cx c) = true) := by
  induction m with
  | zero => simp
  | succ m ih =>
    obtain ⟨ih1, ih2⟩ := ih (by omega)
    have hnew : pixel ((List.range m).foldl (drawBit cx row sprite) d).1 row (spriteCol cx m) =
        pixel d.1 row (spriteCol cx m) := by
      rw [ih1]
      have : ¬∃ c, c < m ∧ spriteBit sprite c = true ∧ spriteCol cx m = spriteCol cx c := by
        rintro ⟨c, hc, -, h⟩
        have := spriteCol_inj (by omega) (by omega) h
        omega
      simp [this]
    rw [List.range_succ, List.foldl_append]
    simp only [List.foldl_cons, List.foldl_nil]
    refine ⟨fun row' col => ?_, ?_⟩
    · rw [drawBit_pixel, ih1, Bool.xor_assoc]
      congr 1
      by_cases hr : row' = row
      · by_cases hc : col = spriteCol cx m
        · subst hr hc
          have : ¬∃ c, c < m ∧ spriteBit sprite c = true ∧ spriteCol cx m = spriteCol cx c := by
            rintro ⟨c, hc, -, h⟩
            have := spriteCol_inj (by omega) (by omega) h
            omega
          have h2 : (∃ c, c < m + 1 ∧ spriteBit sprite c = true ∧ spriteCol cx m = spriteCol cx c) ↔
              spriteBit sprite m = true := by
            constructor
            · rintro ⟨c, hc, hb, h⟩
              rwa [spriteCol_inj (by omega) (by omega) h]
            · exact fun h => ⟨m, by omega, h, rfl⟩
          have e1 : decide (row' = row' ∧ ∃ c, c < m ∧ spriteBit sprite c = true ∧ spriteCol cx m = spriteCol cx c) =
              false := by simp [this]
          have e2 : decide (row' = row' ∧ ∃ c, c < m + 1 ∧ spriteBit sprite c = true ∧ spriteCol cx m = spriteCol cx c) =
              spriteBit sprite m := by
            rw [Bool.eq_iff_iff, decide_eq_true_eq]
            exact ⟨fun h => h2.mp h.2, fun h => ⟨rfl, h2.mpr h⟩⟩
          rw [e1, e2]
          simp
        · have h2 : (∃ c, c < m + 1 ∧ spriteBit sprite c = true ∧ col = spriteCol cx c) ↔
              ∃ c, c < m ∧ spriteBit sprite c = true ∧ col = spriteCol cx c := by
            constructor
            · rintro ⟨c, hc', hb, h⟩
              refine ⟨c, ?_, hb, h⟩
              rcases Nat.lt_succ_iff_lt_or_eq.mp hc' with h3 | h3
              · exact h3
              · exact absurd (h3 ▸ h) hc
            · rintro ⟨c, hc', hb, h⟩
              exact ⟨c, by omega, hb, h⟩
          simp only [hc, decide_false, Bool.and_false, Bool.xor_false, h2]
      · simp [hr]
    · rw [drawBit_collided, Bool.or_eq_true, ih2, hnew, Bool.and_eq_true]
      constructor
      · rintro ((h | ⟨c, hc, hb, hp⟩) | ⟨hb, hp⟩)
        · exact .inl h
        · exact .inr ⟨c, by omega, hb, hp⟩
        · exact .inr ⟨m, by omega, hb, hp⟩
      · rintro (h | ⟨c, hc, hb, hp⟩)
        · exact .inl (.inl h)
        · rcases Nat.lt_succ_iff_lt_or_eq.mp hc with h3 | h3
          · exact .inl (.inr ⟨c, h3, hb, hp⟩)
          · exact .inr (h3 ▸ ⟨hb, hp⟩)

/-- Whether some 1 bit of the sprite, its first byte on sprite row `r`, lands on the pixel. -/
def BytesCover (cx cy : Byte) (r : Nat) (sprites : List Byte) (row : Fin 32) (col : Fin 64) : Prop :=
  ∃ k sprite c, sprites[k]? = some sprite ∧ c < 8 ∧ spriteBit sprite c = true ∧ row = spriteRow cy (r + k) ∧
    col = spriteCol cx c

/-- The pixels of a sprite are those of its first byte and those of the rest. -/
theorem bytesCover_cons (cx cy : Byte) (r : Nat) (b : Byte) (bs : List Byte) (row : Fin 32) (col : Fin 64) :
    BytesCover cx cy r (b :: bs) row col ↔
      (row = spriteRow cy r ∧ ∃ c, c < 8 ∧ spriteBit b c = true ∧ col = spriteCol cx c) ∨
      BytesCover cx cy (r + 1) bs row col := by
  constructor
  · rintro ⟨k, sprite, c, hk, hc, hb, hr, hcol⟩
    cases k with
    | zero =>
      simp only [List.getElem?_cons_zero, Option.some.injEq] at hk
      exact .inl ⟨by simpa using hr, c, hc, hk ▸ hb, hcol⟩
    | succ k =>
      rw [List.getElem?_cons_succ] at hk
      exact .inr ⟨k, sprite, c, hk, hc, hb, by rw [hr]; congr 1; omega, hcol⟩
  · rintro (⟨hr, c, hc, hb, hcol⟩ | ⟨k, sprite, c, hk, hc, hb, hr, hcol⟩)
    · exact ⟨0, b, c, rfl, hc, hb, by simpa using hr, hcol⟩
    · exact ⟨k + 1, sprite, c, by rwa [List.getElem?_cons_succ], hc, hb, by rw [hr]; congr 1; omega, hcol⟩

/-- No pixel is drawn twice: the rows of one sprite are distinct (41_display.md R56, no self-overlap). -/
theorem bytesCover_row_ne {cx cy : Byte} {r : Nat} {bs : List Byte} (h : r + bs.length < 32)
    {row : Fin 32} {col : Fin 64} (hc : BytesCover cx cy (r + 1) bs row col) : row ≠ spriteRow cy r := by
  obtain ⟨k, sprite, c, hk, -, -, hr, -⟩ := hc
  have hlt := (List.getElem?_eq_some_iff.mp hk).1
  intro he
  have := spriteRow_inj (cy := cy) (by omega) (by omega) (he.symm.trans hr)
  omega

open Classical in
/-- The rows of a sprite from row `r` on: each covered pixel is inverted, the others kept, and the collision is noted when a
covered pixel was lit. -/
theorem drawRows_spec (cx cy : Byte) (sprites : List Byte) (r : Nat) (d : FrameBuffer × Bool)
    (h : r + sprites.length ≤ 32) :
    (∀ row col, pixel (drawRows cx cy r sprites d).1 row col =
      (pixel d.1 row col ^^ decide (BytesCover cx cy r sprites row col))) ∧
    ((drawRows cx cy r sprites d).2 = true ↔
      d.2 = true ∨ ∃ row col, BytesCover cx cy r sprites row col ∧ pixel d.1 row col = true) := by
  induction sprites generalizing r d with
  | nil => simp [drawRows, BytesCover]
  | cons b bs ih =>
    simp only [List.length_cons] at h
    obtain ⟨ih1, ih2⟩ := ih (r + 1) (drawByte cx (spriteRow cy r) b d) (by omega)
    obtain ⟨hb1, hb2⟩ := drawBits_spec cx (spriteRow cy r) b d 8 (Nat.le_refl 8)
    have hne : ∀ {row col}, BytesCover cx cy (r + 1) bs row col → row ≠ spriteRow cy r :=
      fun hc => bytesCover_row_ne (by omega) hc
    have hp : ∀ row col, pixel (drawByte cx (spriteRow cy r) b d).1 row col = (pixel d.1 row col ^^
        decide (row = spriteRow cy r ∧ ∃ c, c < 8 ∧ spriteBit b c = true ∧ col = spriteCol cx c)) := by
      intro row col; exact (hb1 row col).trans (by congr)
    have hkeep : ∀ {row col}, BytesCover cx cy (r + 1) bs row col →
        pixel (drawByte cx (spriteRow cy r) b d).1 row col = pixel d.1 row col := by
      intro row col hc
      simp [hp, hne hc]
    refine ⟨fun row col => ?_, ?_⟩
    · rw [drawRows, ih1, hp, bytesCover_cons, Bool.xor_assoc]
      congr 1
      by_cases hc : BytesCover cx cy (r + 1) bs row col
      · simp [hc, hne hc]
      · simp [hc]
    · rw [drawRows, ih2]
      unfold drawByte at hkeep ⊢
      rw [hb2]
      constructor
      · rintro ((h | ⟨c, hc, hb, hpx⟩) | ⟨row, col, hc, hpx⟩)
        · exact .inl h
        · exact .inr ⟨_, _, (bytesCover_cons ..).mpr (.inl ⟨rfl, c, hc, hb, rfl⟩), hpx⟩
        · exact .inr ⟨row, col, (bytesCover_cons ..).mpr (.inr hc), (hkeep hc) ▸ hpx⟩
      · rintro (h | ⟨row, col, hc, hpx⟩)
        · exact .inl (.inl h)
        · rcases (bytesCover_cons ..).mp hc with ⟨hr, c, hc8, hb, hcol⟩ | hc
          · subst hr hcol
            exact .inl (.inr ⟨c, hc8, hb, hpx⟩)
          · exact .inr ⟨row, col, hc, (hkeep hc).symm ▸ hpx⟩

/-- A block of `n` bytes has `n` bytes. -/
theorem length_readBlock (s : State) (base n : Nat) : (s.readBlock base n).length = n := by
  simp [State.readBlock]

/-- The bytes read from memory, in bounds, cover the pixels `SpriteCovers` says. -/
theorem bytesCover_readBlock {s : State} {base n : Nat} (h : base + n ≤ 0x1000) (cx cy : Byte) (row : Fin 32)
    (col : Fin 64) : BytesCover cx cy 0 (s.readBlock base n) row col ↔ SpriteCovers s base n cx cy row col := by
  unfold BytesCover SpriteCovers
  have hget : ∀ k sprite, (s.readBlock base n)[k]? = some sprite ↔ k < n ∧ s.memRead (base + k) = some sprite := by
    intro k sprite
    by_cases hk : k < n
    · have : base + k < Config.memSize := by simp [Config.memSize]; omega
      simp [State.readBlock, State.memRead, hk, this]
    · simp [State.readBlock, hk]
  constructor
  · rintro ⟨k, sprite, c, hk, hc, hb, hr, hcol⟩
    obtain ⟨h1, h2⟩ := (hget k sprite).mp hk
    exact ⟨k, c, sprite, h1, hc, h2, hb, by simp [hr, spriteRow], by simp [hcol, spriteCol]⟩
  · rintro ⟨k, c, sprite, h1, hc, h2, hb, hr, hcol⟩
    exact ⟨k, sprite, c, (hget k sprite).mpr ⟨h1, h2⟩, hc, hb, Fin.ext (by simp [hr, spriteRow]),
      Fin.ext (by simp [hcol, spriteCol])⟩

open Classical in
/-- What DRW draws in bounds, or with `n = 0`: the pixels after it, and when it collides (R56). -/
theorem drawn_spec (x y : Reg) (n : Nibble) (s : State) (h : s.i.toNat + n.toNat ≤ 0x1000 ∨ n.toNat = 0) :
    (∀ row col, pixel (s.drawn x y n).1 row col =
      (pixel s.fb row col ^^ decide (SpriteCovers s s.i.toNat n.toNat (s.reg x) (s.reg y) row col))) ∧
    ((s.drawn x y n).2 = true ↔
      ∃ row col, SpriteCovers s s.i.toNat n.toNat (s.reg x) (s.reg y) row col ∧ pixel s.fb row col = true) := by
  have hl : 0 + (s.readBlock s.i.toNat n.toNat).length ≤ 32 := by
    rw [length_readBlock]
    have := n.isLt
    omega
  have h1 := drawRows_spec (s.reg x) (s.reg y) (s.readBlock s.i.toNat n.toNat) 0 (s.fb, false) hl
  have hb : ∀ row col, BytesCover (s.reg x) (s.reg y) 0 (s.readBlock s.i.toNat n.toNat) row col ↔
      SpriteCovers s s.i.toNat n.toNat (s.reg x) (s.reg y) row col := by
    intro row col
    rcases h with h | h
    · exact bytesCover_readBlock h ..
    · rw [h]
      simp [State.readBlock, BytesCover, SpriteCovers]
  simp only [hb] at h1
  exact ⟨h1.1, by simpa [State.drawn] using h1.2⟩

end Sys2Proof.Machine
end

