-- ==== Sys2Proof/Laws/Encoding.lean ====
section
/-! SUPPORT. The fields of a word (30_encoding.md R42): of a word put together from fields, of a masked word, and that a word
is determined by its four nibbles. The decoder's and the encoder's round trips are left to the provers. -/

namespace Sys2Proof

/-! ### A word put together from its fields -/

theorem getLsbD_wordOXYN (op n : Nibble) (x y : Reg) (k : Nat) :
    (wordOXYN op x y n).getLsbD k =
      if k < 4 then n.getLsbD k else if k < 8 then y.getLsbD (k - 4)
      else if k < 12 then x.getLsbD (k - 8) else op.getLsbD (k - 12) := by
  have h : (wordOXYN op x y n).getLsbD k = (op ++ x ++ y ++ n : BitVec (4 + 4 + 4 + 4)).getLsbD k := rfl
  rw [h, BitVec.getLsbD_append, BitVec.getLsbD_append, BitVec.getLsbD_append]
  have e1 : k - 4 - 4 - 4 = k - 12 := by omega
  have e2 : k - 4 - 4 = k - 8 := by omega
  rw [e1, e2]
  repeat' split
  all_goals first | rfl | omega

theorem getLsbD_wordOXNN (op : Nibble) (x : Reg) (nn : Byte) (k : Nat) :
    (wordOXNN op x nn).getLsbD k =
      if k < 8 then nn.getLsbD k else if k < 12 then x.getLsbD (k - 8) else op.getLsbD (k - 12) := by
  have h : (wordOXNN op x nn).getLsbD k = (op ++ x ++ nn : BitVec (4 + 4 + 8)).getLsbD k := rfl
  rw [h, BitVec.getLsbD_append, BitVec.getLsbD_append]
  have e : k - 8 - 4 = k - 12 := by omega
  rw [e]
  repeat' split
  all_goals first | rfl | omega

theorem getLsbD_wordONNN (op : Nibble) (nnn : Addr12) (k : Nat) :
    (wordONNN op nnn).getLsbD k = if k < 12 then nnn.getLsbD k else op.getLsbD (k - 12) := by
  have h : (wordONNN op nnn).getLsbD k = (op ++ nnn : BitVec (4 + 12)).getLsbD k := rfl
  rw [h, BitVec.getLsbD_append]

/-! ### The fields of such a word -/

@[simp] theorem fieldOp_wordOXYN (op n : Nibble) (x y : Reg) : fieldOp (wordOXYN op x y n) = op := by
  ext k hk
  simp only [fieldOp, ← BitVec.getLsbD_eq_getElem, BitVec.getLsbD_extractLsb', getLsbD_wordOXYN]
  repeat' split
  all_goals first | omega | simp [hk]
@[simp] theorem fieldX_wordOXYN (op n : Nibble) (x y : Reg) : fieldX (wordOXYN op x y n) = x := by
  ext k hk
  simp only [fieldX, ← BitVec.getLsbD_eq_getElem, BitVec.getLsbD_extractLsb', getLsbD_wordOXYN]
  repeat' split
  all_goals first | omega | simp [hk]
@[simp] theorem fieldY_wordOXYN (op n : Nibble) (x y : Reg) : fieldY (wordOXYN op x y n) = y := by
  ext k hk
  simp only [fieldY, ← BitVec.getLsbD_eq_getElem, BitVec.getLsbD_extractLsb', getLsbD_wordOXYN]
  repeat' split
  all_goals first | omega | simp [hk]
@[simp] theorem fieldN_wordOXYN (op n : Nibble) (x y : Reg) : fieldN (wordOXYN op x y n) = n := by
  ext k hk
  simp only [fieldN, ← BitVec.getLsbD_eq_getElem, BitVec.getLsbD_extractLsb', getLsbD_wordOXYN]
  repeat' split
  all_goals first | omega | simp [hk]
@[simp] theorem fieldOp_wordOXNN (op : Nibble) (x : Reg) (nn : Byte) : fieldOp (wordOXNN op x nn) = op := by
  ext k hk
  simp only [fieldOp, ← BitVec.getLsbD_eq_getElem, BitVec.getLsbD_extractLsb', getLsbD_wordOXNN]
  repeat' split
  all_goals first | omega | simp [hk]
@[simp] theorem fieldX_wordOXNN (op : Nibble) (x : Reg) (nn : Byte) : fieldX (wordOXNN op x nn) = x := by
  ext k hk
  simp only [fieldX, ← BitVec.getLsbD_eq_getElem, BitVec.getLsbD_extractLsb', getLsbD_wordOXNN]
  repeat' split
  all_goals first | omega | simp [hk]
@[simp] theorem fieldNn_wordOXNN (op : Nibble) (x : Reg) (nn : Byte) : fieldNn (wordOXNN op x nn) = nn := by
  ext k hk
  simp only [fieldNn, ← BitVec.getLsbD_eq_getElem, BitVec.getLsbD_extractLsb', getLsbD_wordOXNN]
  repeat' split
  all_goals first | omega | simp [hk]
@[simp] theorem fieldY_wordOXNN (op : Nibble) (x : Reg) (nn : Byte) : fieldY (wordOXNN op x nn) = nn.extractLsb' 4 4 := by
  ext k hk
  simp only [fieldY, ← BitVec.getLsbD_eq_getElem, BitVec.getLsbD_extractLsb', getLsbD_wordOXNN]
  repeat' split
  all_goals first | omega | simp [hk]
@[simp] theorem fieldN_wordOXNN (op : Nibble) (x : Reg) (nn : Byte) : fieldN (wordOXNN op x nn) = nn.extractLsb' 0 4 := by
  ext k hk
  simp only [fieldN, ← BitVec.getLsbD_eq_getElem, BitVec.getLsbD_extractLsb', getLsbD_wordOXNN]
  repeat' split
  all_goals first | omega | simp [hk]
@[simp] theorem fieldOp_wordONNN (op : Nibble) (nnn : Addr12) : fieldOp (wordONNN op nnn) = op := by
  ext k hk
  simp only [fieldOp, ← BitVec.getLsbD_eq_getElem, BitVec.getLsbD_extractLsb', getLsbD_wordONNN]
  repeat' split
  all_goals first | omega | simp [hk]
@[simp] theorem fieldNnn_wordONNN (op : Nibble) (nnn : Addr12) : fieldNnn (wordONNN op nnn) = nnn := by
  ext k hk
  simp only [fieldNnn, ← BitVec.getLsbD_eq_getElem, BitVec.getLsbD_extractLsb', getLsbD_wordONNN]
  repeat' split
  all_goals first | omega | simp [hk]
@[simp] theorem fieldX_wordONNN (op : Nibble) (nnn : Addr12) : fieldX (wordONNN op nnn) = nnn.extractLsb' 8 4 := by
  ext k hk
  simp only [fieldX, ← BitVec.getLsbD_eq_getElem, BitVec.getLsbD_extractLsb', getLsbD_wordONNN]
  repeat' split
  all_goals first | omega | simp [hk]
@[simp] theorem fieldY_wordONNN (op : Nibble) (nnn : Addr12) : fieldY (wordONNN op nnn) = nnn.extractLsb' 4 4 := by
  ext k hk
  simp only [fieldY, ← BitVec.getLsbD_eq_getElem, BitVec.getLsbD_extractLsb', getLsbD_wordONNN]
  repeat' split
  all_goals first | omega | simp [hk]
@[simp] theorem fieldN_wordONNN (op : Nibble) (nnn : Addr12) : fieldN (wordONNN op nnn) = nnn.extractLsb' 0 4 := by
  ext k hk
  simp only [fieldN, ← BitVec.getLsbD_eq_getElem, BitVec.getLsbD_extractLsb', getLsbD_wordONNN]
  repeat' split
  all_goals first | omega | simp [hk]

/-! ### A word is its four nibbles -/

theorem word_ext {w w' : Word} (hop : fieldOp w = fieldOp w') (hx : fieldX w = fieldX w') (hy : fieldY w = fieldY w')
    (hn : fieldN w = fieldN w') : w = w' := by
  have bit : ∀ {lo : Nat} (_ : w.extractLsb' lo 4 = w'.extractLsb' lo 4) (j : Nat), j < 4 →
      w.getLsbD (lo + j) = w'.getLsbD (lo + j) := by
    intro lo h j hj
    have := congrArg (fun v => v.getLsbD j) h
    simpa [BitVec.getLsbD_extractLsb', hj] using this
  apply BitVec.eq_of_getLsbD_eq
  intro k hk
  rcases Nat.lt_or_ge k 4 with h | h
  · simpa using bit hn k h
  rcases Nat.lt_or_ge k 8 with h' | h'
  · simpa [show 4 + (k - 4) = k by omega] using bit hy (k - 4) (by omega)
  rcases Nat.lt_or_ge k 12 with h'' | h''
  · simpa [show 8 + (k - 8) = k by omega] using bit hx (k - 8) (by omega)
  · simpa [show 12 + (k - 12) = k by omega] using bit hop (k - 12) (by omega)

theorem fieldOp_and (w m : Word) : fieldOp (w &&& m) = (fieldOp w &&& fieldOp m) := by
  ext k hk; simp [fieldOp]
theorem fieldX_and (w m : Word) : fieldX (w &&& m) = (fieldX w &&& fieldX m) := by
  ext k hk; simp [fieldX]
theorem fieldY_and (w m : Word) : fieldY (w &&& m) = (fieldY w &&& fieldY m) := by
  ext k hk; simp [fieldY]
theorem fieldN_and (w m : Word) : fieldN (w &&& m) = (fieldN w &&& fieldN m) := by
  ext k hk; simp [fieldN]

/-- A row covers a word (30_encoding.md R45) nibble by nibble. -/
theorem covers_nibbles (row : OpcodeRow) (w : Word) :
    row.covers w =
      (fieldOp w &&& fieldOp row.mask == fieldOp row.bits && (fieldX w &&& fieldX row.mask == fieldX row.bits) &&
        (fieldY w &&& fieldY row.mask == fieldY row.bits) && (fieldN w &&& fieldN row.mask == fieldN row.bits)) := by
  rw [Bool.eq_iff_iff]
  simp only [OpcodeRow.covers, beq_iff_eq, Bool.and_eq_true]
  constructor
  · intro h
    rw [← h, fieldOp_and, fieldX_and, fieldY_and, fieldN_and]
    exact ⟨⟨⟨rfl, rfl⟩, rfl⟩, rfl⟩
  · rintro ⟨⟨⟨h1, h2⟩, h3⟩, h4⟩
    exact word_ext (by rw [fieldOp_and, h1]) (by rw [fieldX_and, h2]) (by rw [fieldY_and, h3]) (by rw [fieldN_and, h4])

end Sys2Proof
end

