-- ==== Sys2Proof/Laws/PerInstr.lean ====
section
/-! SUPPORT. For every instruction: its word is covered by exactly one row of the opcode map (30_encoding.md R45), and that
row is its own. -/

namespace Sys2Proof.Laws.MatchesRow

/-- The rows that cover the instruction's word are one, the row of its mnemonic. -/
def Statement (i : Instr) : Prop :=
  (opcodeMap.filter (·.covers (encode i))).map (·.mnemonic) = [i.mnemonic]

/-- The mnemonics of the rows that cover the word with nibbles `o`, `x`, `y`, `n`. -/
def rowsOfNibbles (o x y n : Nibble) : List String :=
  (opcodeMap.filter fun row =>
    o &&& row.mask.extractLsb' 12 4 == row.bits.extractLsb' 12 4 && (x &&& row.mask.extractLsb' 8 4 == row.bits.extractLsb' 8 4) &&
      (y &&& row.mask.extractLsb' 4 4 == row.bits.extractLsb' 4 4) &&
      (n &&& row.mask.extractLsb' 0 4 == row.bits.extractLsb' 0 4)).map (·.mnemonic)

theorem rows_of_fields {w : Word} {o x y n : Nibble} (hop : fieldOp w = o) (hx : fieldX w = x) (hy : fieldY w = y)
    (hn : fieldN w = n) : (opcodeMap.filter (·.covers w)).map (·.mnemonic) = rowsOfNibbles o x y n := by
  simp only [rowsOfNibbles, covers_nibbles, hop, hx, hy, hn]
  rfl

theorem cls : Statement .cls := by
  unfold Statement; decide

theorem ret : Statement .ret := by
  unfold Statement; decide

theorem jpNnn (nnn : Addr12) : Statement (.jpNnn nnn) :=
  (rows_of_fields (o := 0x1#4) (by simp [encode]) rfl rfl rfl).trans
    (by simp [rowsOfNibbles, opcodeMap, opcodeMap.rows0to7, opcodeMap.rows8, opcodeMap.rows9toD, opcodeMap.rowsE,
    opcodeMap.rowsF, Instr.mnemonic])

theorem callNnn (nnn : Addr12) : Statement (.callNnn nnn) :=
  (rows_of_fields (o := 0x2#4) (by simp [encode]) rfl rfl rfl).trans
    (by simp [rowsOfNibbles, opcodeMap, opcodeMap.rows0to7, opcodeMap.rows8, opcodeMap.rows9toD, opcodeMap.rowsE,
    opcodeMap.rowsF, Instr.mnemonic])

theorem seVxNn (x : Reg) (nn : Byte) : Statement (.seVxNn x nn) :=
  (rows_of_fields (o := 0x3#4) (by simp [encode]) rfl rfl rfl).trans
    (by simp [rowsOfNibbles, opcodeMap, opcodeMap.rows0to7, opcodeMap.rows8, opcodeMap.rows9toD, opcodeMap.rowsE,
    opcodeMap.rowsF, Instr.mnemonic])

theorem sneVxNn (x : Reg) (nn : Byte) : Statement (.sneVxNn x nn) :=
  (rows_of_fields (o := 0x4#4) (by simp [encode]) rfl rfl rfl).trans
    (by simp [rowsOfNibbles, opcodeMap, opcodeMap.rows0to7, opcodeMap.rows8, opcodeMap.rows9toD, opcodeMap.rowsE,
    opcodeMap.rowsF, Instr.mnemonic])

theorem seVxVy (x : Reg) (y : Reg) (n : Nibble) : Statement (.seVxVy x y n) :=
  (rows_of_fields (o := 0x5#4) (by simp [encode]) rfl rfl rfl).trans
    (by simp [rowsOfNibbles, opcodeMap, opcodeMap.rows0to7, opcodeMap.rows8, opcodeMap.rows9toD, opcodeMap.rowsE,
    opcodeMap.rowsF, Instr.mnemonic])

theorem ldVxNn (x : Reg) (nn : Byte) : Statement (.ldVxNn x nn) :=
  (rows_of_fields (o := 0x6#4) (by simp [encode]) rfl rfl rfl).trans
    (by simp [rowsOfNibbles, opcodeMap, opcodeMap.rows0to7, opcodeMap.rows8, opcodeMap.rows9toD, opcodeMap.rowsE,
    opcodeMap.rowsF, Instr.mnemonic])

theorem addVxNn (x : Reg) (nn : Byte) : Statement (.addVxNn x nn) :=
  (rows_of_fields (o := 0x7#4) (by simp [encode]) rfl rfl rfl).trans
    (by simp [rowsOfNibbles, opcodeMap, opcodeMap.rows0to7, opcodeMap.rows8, opcodeMap.rows9toD, opcodeMap.rowsE,
    opcodeMap.rowsF, Instr.mnemonic])

theorem ldVxVy (x : Reg) (y : Reg) : Statement (.ldVxVy x y) :=
  (rows_of_fields (o := 0x8#4) (n := 0x0#4) (by simp [encode]) rfl rfl (by simp [encode])).trans
    (by simp [rowsOfNibbles, opcodeMap, opcodeMap.rows0to7, opcodeMap.rows8, opcodeMap.rows9toD, opcodeMap.rowsE,
    opcodeMap.rowsF, Instr.mnemonic])

theorem orVxVy (x : Reg) (y : Reg) : Statement (.orVxVy x y) :=
  (rows_of_fields (o := 0x8#4) (n := 0x1#4) (by simp [encode]) rfl rfl (by simp [encode])).trans
    (by simp [rowsOfNibbles, opcodeMap, opcodeMap.rows0to7, opcodeMap.rows8, opcodeMap.rows9toD, opcodeMap.rowsE,
    opcodeMap.rowsF, Instr.mnemonic])

theorem andVxVy (x : Reg) (y : Reg) : Statement (.andVxVy x y) :=
  (rows_of_fields (o := 0x8#4) (n := 0x2#4) (by simp [encode]) rfl rfl (by simp [encode])).trans
    (by simp [rowsOfNibbles, opcodeMap, opcodeMap.rows0to7, opcodeMap.rows8, opcodeMap.rows9toD, opcodeMap.rowsE,
    opcodeMap.rowsF, Instr.mnemonic])

theorem xorVxVy (x : Reg) (y : Reg) : Statement (.xorVxVy x y) :=
  (rows_of_fields (o := 0x8#4) (n := 0x3#4) (by simp [encode]) rfl rfl (by simp [encode])).trans
    (by simp [rowsOfNibbles, opcodeMap, opcodeMap.rows0to7, opcodeMap.rows8, opcodeMap.rows9toD, opcodeMap.rowsE,
    opcodeMap.rowsF, Instr.mnemonic])

theorem addVxVy (x : Reg) (y : Reg) : Statement (.addVxVy x y) :=
  (rows_of_fields (o := 0x8#4) (n := 0x4#4) (by simp [encode]) rfl rfl (by simp [encode])).trans
    (by simp [rowsOfNibbles, opcodeMap, opcodeMap.rows0to7, opcodeMap.rows8, opcodeMap.rows9toD, opcodeMap.rowsE,
    opcodeMap.rowsF, Instr.mnemonic])

theorem subVxVy (x : Reg) (y : Reg) : Statement (.subVxVy x y) :=
  (rows_of_fields (o := 0x8#4) (n := 0x5#4) (by simp [encode]) rfl rfl (by simp [encode])).trans
    (by simp [rowsOfNibbles, opcodeMap, opcodeMap.rows0to7, opcodeMap.rows8, opcodeMap.rows9toD, opcodeMap.rowsE,
    opcodeMap.rowsF, Instr.mnemonic])

theorem shrVx (x : Reg) (y : Reg) : Statement (.shrVx x y) :=
  (rows_of_fields (o := 0x8#4) (n := 0x6#4) (by simp [encode]) rfl rfl (by simp [encode])).trans
    (by simp [rowsOfNibbles, opcodeMap, opcodeMap.rows0to7, opcodeMap.rows8, opcodeMap.rows9toD, opcodeMap.rowsE,
    opcodeMap.rowsF, Instr.mnemonic])

theorem subnVxVy (x : Reg) (y : Reg) : Statement (.subnVxVy x y) :=
  (rows_of_fields (o := 0x8#4) (n := 0x7#4) (by simp [encode]) rfl rfl (by simp [encode])).trans
    (by simp [rowsOfNibbles, opcodeMap, opcodeMap.rows0to7, opcodeMap.rows8, opcodeMap.rows9toD, opcodeMap.rowsE,
    opcodeMap.rowsF, Instr.mnemonic])

theorem shlVx (x : Reg) (y : Reg) : Statement (.shlVx x y) :=
  (rows_of_fields (o := 0x8#4) (n := 0xE#4) (by simp [encode]) rfl rfl (by simp [encode])).trans
    (by simp [rowsOfNibbles, opcodeMap, opcodeMap.rows0to7, opcodeMap.rows8, opcodeMap.rows9toD, opcodeMap.rowsE,
    opcodeMap.rowsF, Instr.mnemonic])

theorem sneVxVy (x : Reg) (y : Reg) (n : Nibble) : Statement (.sneVxVy x y n) :=
  (rows_of_fields (o := 0x9#4) (by simp [encode]) rfl rfl rfl).trans
    (by simp [rowsOfNibbles, opcodeMap, opcodeMap.rows0to7, opcodeMap.rows8, opcodeMap.rows9toD, opcodeMap.rowsE,
    opcodeMap.rowsF, Instr.mnemonic])

theorem ldINnn (nnn : Addr12) : Statement (.ldINnn nnn) :=
  (rows_of_fields (o := 0xA#4) (by simp [encode]) rfl rfl rfl).trans
    (by simp [rowsOfNibbles, opcodeMap, opcodeMap.rows0to7, opcodeMap.rows8, opcodeMap.rows9toD, opcodeMap.rowsE,
    opcodeMap.rowsF, Instr.mnemonic])

theorem jpV0Nnn (nnn : Addr12) : Statement (.jpV0Nnn nnn) :=
  (rows_of_fields (o := 0xB#4) (by simp [encode]) rfl rfl rfl).trans
    (by simp [rowsOfNibbles, opcodeMap, opcodeMap.rows0to7, opcodeMap.rows8, opcodeMap.rows9toD, opcodeMap.rowsE,
    opcodeMap.rowsF, Instr.mnemonic])

theorem rndVxNn (x : Reg) (nn : Byte) : Statement (.rndVxNn x nn) :=
  (rows_of_fields (o := 0xC#4) (by simp [encode]) rfl rfl rfl).trans
    (by simp [rowsOfNibbles, opcodeMap, opcodeMap.rows0to7, opcodeMap.rows8, opcodeMap.rows9toD, opcodeMap.rowsE,
    opcodeMap.rowsF, Instr.mnemonic])

theorem drwVxVyN (x : Reg) (y : Reg) (n : Nibble) : Statement (.drwVxVyN x y n) :=
  (rows_of_fields (o := 0xD#4) (by simp [encode]) rfl rfl rfl).trans
    (by simp [rowsOfNibbles, opcodeMap, opcodeMap.rows0to7, opcodeMap.rows8, opcodeMap.rows9toD, opcodeMap.rowsE,
    opcodeMap.rowsF, Instr.mnemonic])

theorem skpVx (x : Reg) : Statement (.skpVx x) :=
  (rows_of_fields (o := 0xE#4) (y := 0x9#4) (n := 0xE#4) (by simp [encode]) rfl (by simp [encode]) (by simp [encode])).trans
    (by simp [rowsOfNibbles, opcodeMap, opcodeMap.rows0to7, opcodeMap.rows8, opcodeMap.rows9toD, opcodeMap.rowsE,
    opcodeMap.rowsF, Instr.mnemonic])

theorem sknpVx (x : Reg) : Statement (.sknpVx x) :=
  (rows_of_fields (o := 0xE#4) (y := 0xA#4) (n := 0x1#4) (by simp [encode]) rfl (by simp [encode]) (by simp [encode])).trans
    (by simp [rowsOfNibbles, opcodeMap, opcodeMap.rows0to7, opcodeMap.rows8, opcodeMap.rows9toD, opcodeMap.rowsE,
    opcodeMap.rowsF, Instr.mnemonic])

theorem ldVxDt (x : Reg) : Statement (.ldVxDt x) :=
  (rows_of_fields (o := 0xF#4) (y := 0x0#4) (n := 0x7#4) (by simp [encode]) rfl (by simp [encode]) (by simp [encode])).trans
    (by simp [rowsOfNibbles, opcodeMap, opcodeMap.rows0to7, opcodeMap.rows8, opcodeMap.rows9toD, opcodeMap.rowsE,
    opcodeMap.rowsF, Instr.mnemonic])

theorem ldVxK (x : Reg) : Statement (.ldVxK x) :=
  (rows_of_fields (o := 0xF#4) (y := 0x0#4) (n := 0xA#4) (by simp [encode]) rfl (by simp [encode]) (by simp [encode])).trans
    (by simp [rowsOfNibbles, opcodeMap, opcodeMap.rows0to7, opcodeMap.rows8, opcodeMap.rows9toD, opcodeMap.rowsE,
    opcodeMap.rowsF, Instr.mnemonic])

theorem ldDtVx (x : Reg) : Statement (.ldDtVx x) :=
  (rows_of_fields (o := 0xF#4) (y := 0x1#4) (n := 0x5#4) (by simp [encode]) rfl (by simp [encode]) (by simp [encode])).trans
    (by simp [rowsOfNibbles, opcodeMap, opcodeMap.rows0to7, opcodeMap.rows8, opcodeMap.rows9toD, opcodeMap.rowsE,
    opcodeMap.rowsF, Instr.mnemonic])

theorem ldStVx (x : Reg) : Statement (.ldStVx x) :=
  (rows_of_fields (o := 0xF#4) (y := 0x1#4) (n := 0x8#4) (by simp [encode]) rfl (by simp [encode]) (by simp [encode])).trans
    (by simp [rowsOfNibbles, opcodeMap, opcodeMap.rows0to7, opcodeMap.rows8, opcodeMap.rows9toD, opcodeMap.rowsE,
    opcodeMap.rowsF, Instr.mnemonic])

theorem addIVx (x : Reg) : Statement (.addIVx x) :=
  (rows_of_fields (o := 0xF#4) (y := 0x1#4) (n := 0xE#4) (by simp [encode]) rfl (by simp [encode]) (by simp [encode])).trans
    (by simp [rowsOfNibbles, opcodeMap, opcodeMap.rows0to7, opcodeMap.rows8, opcodeMap.rows9toD, opcodeMap.rowsE,
    opcodeMap.rowsF, Instr.mnemonic])

theorem ldFVx (x : Reg) : Statement (.ldFVx x) :=
  (rows_of_fields (o := 0xF#4) (y := 0x2#4) (n := 0x9#4) (by simp [encode]) rfl (by simp [encode]) (by simp [encode])).trans
    (by simp [rowsOfNibbles, opcodeMap, opcodeMap.rows0to7, opcodeMap.rows8, opcodeMap.rows9toD, opcodeMap.rowsE,
    opcodeMap.rowsF, Instr.mnemonic])

theorem ldBVx (x : Reg) : Statement (.ldBVx x) :=
  (rows_of_fields (o := 0xF#4) (y := 0x3#4) (n := 0x3#4) (by simp [encode]) rfl (by simp [encode]) (by simp [encode])).trans
    (by simp [rowsOfNibbles, opcodeMap, opcodeMap.rows0to7, opcodeMap.rows8, opcodeMap.rows9toD, opcodeMap.rowsE,
    opcodeMap.rowsF, Instr.mnemonic])

theorem ldMemVx (x : Reg) : Statement (.ldMemVx x) :=
  (rows_of_fields (o := 0xF#4) (y := 0x5#4) (n := 0x5#4) (by simp [encode]) rfl (by simp [encode]) (by simp [encode])).trans
    (by simp [rowsOfNibbles, opcodeMap, opcodeMap.rows0to7, opcodeMap.rows8, opcodeMap.rows9toD, opcodeMap.rowsE,
    opcodeMap.rowsF, Instr.mnemonic])

theorem ldVxMem (x : Reg) : Statement (.ldVxMem x) :=
  (rows_of_fields (o := 0xF#4) (y := 0x6#4) (n := 0x5#4) (by simp [encode]) rfl (by simp [encode]) (by simp [encode])).trans
    (by simp [rowsOfNibbles, opcodeMap, opcodeMap.rows0to7, opcodeMap.rows8, opcodeMap.rows9toD, opcodeMap.rowsE,
    opcodeMap.rowsF, Instr.mnemonic])

end Sys2Proof.Laws.MatchesRow
end

