-- ==== Sys2Proof/Tests/Slice0.lean ====
section
/-! SUPPORT. The model's own tests. Expected values are from the spec: the words of the decode tests are written out
  bit by bit
from the patterns of 30_encoding.md R45, the one-step tests are rows of 95_test_vectors.md (its section is named above each
group), and the last part shows, for every statement with hypotheses, states and operands that meet them. -/

namespace Sys2Proof.Tests

open Sys2Proof Sys2Proof.Machine

set_option maxRecDepth 20000

/-- The outcome is a next state that `p` holds of. -/
def ends (o : Host.Outcome State Fault Refusal) (p : State → Bool) : Bool :=
  match o with
  | .next t => p t
  | .fault _ => false
  | .refused _ => false

/-- The reset state with the top left pixel lit. -/
def litOrigin : State := { State.reset with fb := flipPixel clearFrame 0 0 }

/-! ### Well-formedness: an ill-formed word of each set of 30_encoding.md R46 is refused -/

theorem test_illformed_family0 : wellFormedWord 0x0123 = false ∧ decode 0x0123 = .error (.unknownOpcode 0x0123) := by decide
theorem test_illformed_family8 : wellFormedWord 0x8008 = false ∧ decode 0x8008 = .error (.unknownOpcode 0x8008) := by decide
theorem test_illformed_familyE : wellFormedWord 0xE0FF = false ∧ decode 0xE0FF = .error (.unknownOpcode 0xE0FF) := by decide
theorem test_illformed_familyF : wellFormedWord 0xF0FF = false ∧ decode 0xF0FF = .error (.unknownOpcode 0xF0FF) := by decide
theorem test_wellformed_low_nibble : wellFormedWord 0x5121 = true ∧ wellFormedWord 0x912F = true := by decide
theorem test_not_assembled_se : Instr.assembled (.seVxVy 1 2 1) = false := by decide
theorem test_not_assembled_sne : Instr.assembled (.sneVxVy 1 2 1) = false := by decide
theorem test_decodeBytes_truncated : decodeBytes [0x60] = .error .truncated ∧ decodeBytes [] = .error .truncated := by decide
theorem test_decodeBytes_rest : decodeBytes [0x60, 0x05, 0x61] = .ok (.ldVxNn 0 0x05, [0x61]) := by decide

/-! ### Decoding: one word of every constructor, bit by bit -/

theorem test_decode_cls : decode 0b0000000011100000#16 = .ok (.cls) := by decide
theorem test_decode_ret : decode 0b0000000011101110#16 = .ok (.ret) := by decide
theorem test_decode_jpNnn : decode 0b0001101010111100#16 = .ok (.jpNnn 0xABC) := by decide
theorem test_decode_callNnn : decode 0b0010111100001110#16 = .ok (.callNnn 0xF0E) := by decide
theorem test_decode_seVxNn : decode 0b0011010110100011#16 = .ok (.seVxNn 0x5 0xA3) := by decide
theorem test_decode_sneVxNn : decode 0b0100111100000001#16 = .ok (.sneVxNn 0xF 0x01) := by decide
theorem test_decode_seVxVy : decode 0b0101000100100001#16 = .ok (.seVxVy 0x1 0x2 0x1) := by decide
theorem test_decode_ldVxNn : decode 0b0110110011110000#16 = .ok (.ldVxNn 0xC 0xF0) := by decide
theorem test_decode_addVxNn : decode 0b0111001010000001#16 = .ok (.addVxNn 0x2 0x81) := by decide
theorem test_decode_ldVxVy : decode 0b1000011010010000#16 = .ok (.ldVxVy 0x6 0x9) := by decide
theorem test_decode_orVxVy : decode 0b1000011010010001#16 = .ok (.orVxVy 0x6 0x9) := by decide
theorem test_decode_andVxVy : decode 0b1000011010010010#16 = .ok (.andVxVy 0x6 0x9) := by decide
theorem test_decode_xorVxVy : decode 0b1000011010010011#16 = .ok (.xorVxVy 0x6 0x9) := by decide
theorem test_decode_addVxVy : decode 0b1000011010010100#16 = .ok (.addVxVy 0x6 0x9) := by decide
theorem test_decode_subVxVy : decode 0b1000011010010101#16 = .ok (.subVxVy 0x6 0x9) := by decide
theorem test_decode_shrVx : decode 0b1000011010010110#16 = .ok (.shrVx 0x6 0x9) := by decide
theorem test_decode_subnVxVy : decode 0b1000011010010111#16 = .ok (.subnVxVy 0x6 0x9) := by decide
theorem test_decode_shlVx : decode 0b1000011010011110#16 = .ok (.shlVx 0x6 0x9) := by decide
theorem test_decode_sneVxVy : decode 0b1001111001111111#16 = .ok (.sneVxVy 0xE 0x7 0xF) := by decide
theorem test_decode_ldINnn : decode 0b1010001000000010#16 = .ok (.ldINnn 0x202) := by decide
theorem test_decode_jpV0Nnn : decode 0b1011001100000100#16 = .ok (.jpV0Nnn 0x304) := by decide
theorem test_decode_rndVxNn : decode 0b1100001100001111#16 = .ok (.rndVxNn 0x3 0x0F) := by decide
theorem test_decode_drwVxVyN : decode 0b1101000100101000#16 = .ok (.drwVxVyN 0x1 0x2 0x8) := by decide
theorem test_decode_skpVx : decode 0b1110101110011110#16 = .ok (.skpVx 0xB) := by decide
theorem test_decode_sknpVx : decode 0b1110101110100001#16 = .ok (.sknpVx 0xB) := by decide
theorem test_decode_ldVxDt : decode 0b1111110100000111#16 = .ok (.ldVxDt 0xD) := by decide
theorem test_decode_ldVxK : decode 0b1111110100001010#16 = .ok (.ldVxK 0xD) := by decide
theorem test_decode_ldDtVx : decode 0b1111110100010101#16 = .ok (.ldDtVx 0xD) := by decide
theorem test_decode_ldStVx : decode 0b1111110100011000#16 = .ok (.ldStVx 0xD) := by decide
theorem test_decode_addIVx : decode 0b1111110100011110#16 = .ok (.addIVx 0xD) := by decide
theorem test_decode_ldFVx : decode 0b1111110100101001#16 = .ok (.ldFVx 0xD) := by decide
theorem test_decode_ldBVx : decode 0b1111110100110011#16 = .ok (.ldBVx 0xD) := by decide
theorem test_decode_ldMemVx : decode 0b1111110101010101#16 = .ok (.ldMemVx 0xD) := by decide
theorem test_decode_ldVxMem : decode 0b1111110101100101#16 = .ok (.ldVxMem 0xD) := by decide

/-! ### The host's two questions, on one row -/

theorem test_decodeTableWord : decodeTableWord 16 0x8014 = some (.addVxVy 0 1) := by decide
theorem test_withFetchWord_runs_the_word :
    ends (step (State.reset.withFetchWord 16 0x6A2B)) (fun t => t.reg 0xA == 0x2B && t.pc == 0x202) = true := by decide

/-! ### One step of every instruction -/

/-! 95_test_vectors.md 2.2 Display -/

theorem test_cls_clears :
    ends (exec .cls { litOrigin with v := State.reset.v.set 15 0x55 })
      (fun t => t.fb == clearFrame && t.reg 0xF == 0x55 && t.pc == 0x202) = true := by decide
theorem test_drw_glyph :
    ends (exec (.drwVxVyN 0 1 5) { State.reset with i := 0x050 })
      (fun t => t.lit 0 0 && t.lit 0 3 && !t.lit 0 4 && !t.lit 1 1 && t.lit 1 3 && t.lit 4 3 && !t.lit 5 0 &&
        t.reg 0xF == 0 && t.pc == 0x202) = true := by decide
theorem test_drw_wraps_and_collides :
    ends (exec (.drwVxVyN 0 1 1) { litOrigin with mem := [(0x300, 0xFF)], i := 0x300, v := State.reset.v.set 0 60 })
      (fun t => t.lit 0 60 && t.lit 0 63 && !t.lit 0 0 && t.lit 0 3 && !t.lit 0 4 && !t.lit 0 59 &&
        t.reg 0xF == 1) = true := by decide

/-! 95_test_vectors.md 2.3 Control transfer -/

theorem test_jp_odd_target :
    ends (exec (.jpNnn 0x201) State.reset)
      (fun t => t.pc == 0x201 && t.result == some .ok) = true := by decide
theorem test_call_last_room :
    ends (exec (.callNnn 0x300) { State.reset with sp := 15 })
      (fun t => t.stack[15] == 0x202 && t.sp == 16 && t.pc == 0x300) = true := by decide
theorem test_call_full :
    ends (exec (.callNnn 0x300) { State.reset with sp := 16 })
      (fun t => t.sp == 16 && t.stack == State.reset.stack && t.pc == 0x202 &&
        t.result == some (.stackOverflow 0x200)) = true := by decide
theorem test_ret_pops :
    ends (exec .ret { State.reset with sp := 1, stack := State.reset.stack.set 0 0x206 })
      (fun t => t.sp == 0 && t.pc == 0x206 && t.stack[0] == 0x206) = true := by decide
theorem test_ret_empty :
    ends (exec .ret State.reset)
      (fun t => t.sp == 0 && t.pc == 0x202 && t.result == some (.stackUnderflow 0x200)) = true := by decide
theorem test_seVxNn_equal :
    ends (exec (.seVxNn 3 0x12) (State.reset.setReg 3 0x12))
      (fun t => t.pc == 0x204) = true := by decide
theorem test_seVxNn_differs :
    ends (exec (.seVxNn 3 0x13) (State.reset.setReg 3 0x12))
      (fun t => t.pc == 0x202) = true := by decide
theorem test_sneVxNn_equal :
    ends (exec (.sneVxNn 3 0x12) (State.reset.setReg 3 0x12))
      (fun t => t.pc == 0x202) = true := by decide
theorem test_sneVxNn_differs :
    ends (exec (.sneVxNn 3 0x00) (State.reset.setReg 3 0x12))
      (fun t => t.pc == 0x204) = true := by decide
theorem test_seVxVy_low_nibble_ignored :
    ends (exec (.seVxVy 1 2 1) ((State.reset.setReg 1 7).setReg 2 7))
      (fun t => t.pc == 0x204) = true := by decide
theorem test_sneVxVy_differs :
    ends (exec (.sneVxVy 1 2 0) ((State.reset.setReg 1 7).setReg 2 8))
      (fun t => t.pc == 0x204) = true := by decide
theorem test_sneVxVy_same_register :
    ends (exec (.sneVxVy 1 1 0) (State.reset.setReg 1 7))
      (fun t => t.pc == 0x202) = true := by decide
theorem test_jpV0_leaves_the_array :
    ends (exec (.jpV0Nnn 0xF01) (State.reset.setReg 0 0xFF))
      (fun t => t.pc == 0x1000 && t.result == some .ok) = true := by decide

/-! 95_test_vectors.md 2.4 Register and arithmetic -/

theorem test_ldVxNn :
    ends (exec (.ldVxNn 0 0x05) State.reset)
      (fun t => t.reg 0 == 0x05 && t.reg 0xF == 0) = true := by decide
theorem test_addVxNn_wraps :
    ends (exec (.addVxNn 0 0x01) (State.reset.setReg 0 0xFF))
      (fun t => t.reg 0 == 0 && t.reg 0xF == 0) = true := by decide
theorem test_addVxNn_to_vf :
    ends (exec (.addVxNn 0xF 0x01) (State.reset.setReg 15 0xFE))
      (fun t => t.reg 0xF == 0xFF) = true := by decide
theorem test_ldVxVy_keeps_vf :
    ends (exec (.ldVxVy 0 1) ((State.reset.setReg 1 0x3C).setReg 15 0xAA))
      (fun t => t.reg 0 == 0x3C && t.reg 0xF == 0xAA) = true := by decide
theorem test_orVxVy_keeps_vf :
    ends (exec (.orVxVy 0 1) (((State.reset.setReg 0 0x0F).setReg 1 0xF0).setReg 15 0xAA))
      (fun t => t.reg 0 == 0xFF && t.reg 0xF == 0xAA) = true := by decide
theorem test_andVxVy_keeps_vf :
    ends (exec (.andVxVy 0 1) (((State.reset.setReg 0 0x3C).setReg 1 0x0F).setReg 15 0xAA))
      (fun t => t.reg 0 == 0x0C && t.reg 0xF == 0xAA) = true := by decide
theorem test_xorVxVy_keeps_vf :
    ends (exec (.xorVxVy 0 1) (((State.reset.setReg 0 0x3C).setReg 1 0x0F).setReg 15 0xAA))
      (fun t => t.reg 0 == 0x33 && t.reg 0xF == 0xAA) = true := by decide
theorem test_addVxVy_carry :
    ends (exec (.addVxVy 0 1) ((State.reset.setReg 0 0x80).setReg 1 0x80))
      (fun t => t.reg 0 == 0 && t.reg 0xF == 1) = true := by decide
theorem test_addVxVy_y_is_vf :
    ends (exec (.addVxVy 0 0xF) ((State.reset.setReg 0 0x10).setReg 15 1))
      (fun t => t.reg 0 == 0x11 && t.reg 0xF == 0) = true := by decide
theorem test_subVxVy_borrow :
    ends (exec (.subVxVy 0 1) ((State.reset.setReg 0 5).setReg 1 8))
      (fun t => t.reg 0 == 0xFD && t.reg 0xF == 0) = true := by decide
theorem test_subVxVy_x_is_vf :
    ends (exec (.subVxVy 0xF 1) ((State.reset.setReg 15 0x10).setReg 1 1))
      (fun t => t.reg 0xF == 0x0F) = true := by decide
theorem test_shrVx_ignores_y :
    ends (exec (.shrVx 0 1) ((State.reset.setReg 0 4).setReg 1 0xFF))
      (fun t => t.reg 0 == 2 && t.reg 0xF == 0) = true := by decide
theorem test_shrVx_bit_out :
    ends (exec (.shrVx 0 0) (State.reset.setReg 0 0xFF))
      (fun t => t.reg 0 == 0x7F && t.reg 0xF == 1) = true := by decide
theorem test_subnVxVy_no_borrow :
    ends (exec (.subnVxVy 0 1) ((State.reset.setReg 0 5).setReg 1 8))
      (fun t => t.reg 0 == 3 && t.reg 0xF == 1) = true := by decide
theorem test_subnVxVy_equal :
    ends (exec (.subnVxVy 0 1) ((State.reset.setReg 0 9).setReg 1 9))
      (fun t => t.reg 0 == 0 && t.reg 0xF == 1) = true := by decide
theorem test_shlVx_bit_out :
    ends (exec (.shlVx 0 0) (State.reset.setReg 0 0x81))
      (fun t => t.reg 0 == 2 && t.reg 0xF == 1) = true := by decide
theorem test_shlVx_x_is_vf :
    ends (exec (.shlVx 0xF 0) (State.reset.setReg 15 0xC0))
      (fun t => t.reg 0xF == 0x80) = true := by decide
theorem test_rndVxNn_masks :
    ends (exec (.rndVxNn 3 0x0F) { State.reset with draw := 0xA7 })
      (fun t => t.reg 3 == 0x07) = true := by decide

/-! 95_test_vectors.md 2.5 Index and memory -/

theorem test_ldINnn :
    ends (exec (.ldINnn 0x202) State.reset)
      (fun t => t.i == 0x202) = true := by decide
theorem test_addIVx_masks :
    ends (exec (.addIVx 0) { ((State.reset.setReg 0 1).setReg 15 0x55) with i := 0xFFF })
      (fun t => t.i == 0 && t.reg 0xF == 0x55) = true := by decide
theorem test_ldFVx_low_nibble :
    ends (exec (.ldFVx 0) (State.reset.setReg 0 0x1A))
      (fun t => t.i == 0x082) = true := by decide
theorem test_ldBVx_digits :
    ends (exec (.ldBVx 0) { (State.reset.setReg 0 234) with i := 0x300 })
      (fun t => t.mem == [(0x300, 2), (0x301, 3), (0x302, 4)] && t.i == 0x300) = true := by decide
theorem test_ldBVx_out :
    ends (exec (.ldBVx 0) { (State.reset.setReg 0 100) with i := 0xFFE })
      (fun t => t.mem == [] && t.pc == 0x202 && t.result == some (.invalidMemoryAccess 0x200 0x1000)) = true := by decide
theorem test_ldMemVx_last_byte :
    ends (exec (.ldMemVx 0xF) { (((State.reset.setReg 0 0x11).setReg 1 0x22).setReg 15 0xFF) with i := 0xFF0 })
      (fun t => t.mem == [(0xFF0, 0x11), (0xFF1, 0x22), (0xFFF, 0xFF)] && t.i == 0xFF0) = true := by decide
theorem test_ldMemVx_out :
    ends (exec (.ldMemVx 1) { (State.reset.setReg 0 0x11) with i := 0xFFF })
      (fun t => t.mem == [] && t.result == some (.invalidMemoryAccess 0x200 0x1000)) = true := by decide
theorem test_ldVxMem_above_x_kept :
    ends (exec (.ldVxMem 1) { (State.reset.setReg 2 0x77) with i := 0x300, mem := [(0x300, 0xAB), (0x301, 0xCD)] })
      (fun t => t.reg 0 == 0xAB && t.reg 1 == 0xCD && t.reg 2 == 0x77 && t.i == 0x300) = true := by decide
theorem test_ldVxMem_out :
    ends (exec (.ldVxMem 0xF) { State.reset with i := 0xFF1 })
      (fun t => t.v == State.reset.v && t.result == some (.invalidMemoryAccess 0x200 0x1000)) = true := by decide

/-! 95_test_vectors.md 2.6 Keys and timers -/

theorem test_skpVx_low_nibble :
    ends (exec (.skpVx 1) { (State.reset.setReg 1 0x15) with keys := State.reset.keys.set 5 true })
      (fun t => t.pc == 0x204) = true := by decide
theorem test_sknpVx_released :
    ends (exec (.sknpVx 1) (State.reset.setReg 1 5))
      (fun t => t.pc == 0x204) = true := by decide
theorem test_ldVxDt :
    ends (exec (.ldVxDt 3) { State.reset with dt := 0x3C })
      (fun t => t.reg 3 == 0x3C) = true := by decide
theorem test_ldDtVx :
    ends (exec (.ldDtVx 0) (State.reset.setReg 0 5))
      (fun t => t.dt == 5 && t.st == 0) = true := by decide
theorem test_ldStVx_sounds :
    ends (exec (.ldStVx 2) (State.reset.setReg 2 2))
      (fun t => t.st == 2 && t.soundActive && t.dt == 0) = true := by decide
theorem test_ldVxK_waits :
    ends (exec (.ldVxK 0) { State.reset with keys := State.reset.keys.set 4 true })
      (fun t => t.wait == some 0 && t.edge == none && t.pc == 0x200 && t.result == some .awaiting) = true := by decide

/-! 95_test_vectors.md 2.1 Fetch and decode -/

theorem test_fetch_last_word :
    ends (runCycle { State.reset with pc := 0xFFE })
      (fun t => t.pc == 0x1000 && t.result == some (.unknownOpcode 0xFFE 0x0000)) = true := by decide
theorem test_fetch_half_out :
    ends (runCycle { State.reset with pc := 0xFFF })
      (fun t => t.pc == 0x1001 && t.result == some (.invalidMemoryAccess 0xFFF 0x1000)) = true := by decide
theorem test_fetch_out_wraps :
    ends (runCycle { State.reset with pc := 0xFFFE })
      (fun t => t.pc == 0x0000 && t.result == some (.invalidMemoryAccess 0xFFFE 0xFFFE)) = true := by decide
theorem test_fetch_odd_pc :
    ends (runCycle { State.reset with pc := 0x201, mem := [(0x201, 0x60), (0x202, 0x2A)] })
      (fun t => t.reg 0 == 0x2A && t.pc == 0x203) = true := by decide

/-! 95_test_vectors.md 2.6 and 2.7 The host's commands -/

theorem test_tick_samples_before :
    ends (perform .tick { State.reset with st := 1 })
      (fun t => t.st == 0 && t.dt == 0 && t.result == some (.tone true)) = true := by decide
theorem test_set_key_already_pressed :
    ends (perform (.setKey 4 true) { State.reset with keys := State.reset.keys.set 4 true, wait := some 0 })
      (fun t => t.edge == none) = true := by decide
theorem test_set_key_first_edge_kept :
    ends (perform (.setKey 9 true) { State.reset with wait := some 0, edge := some 4 })
      (fun t => t.edge == some 4 && t.keyPressed 9) = true := by decide
theorem test_reset_keeps_keys :
    ends (perform .reset { State.reset with wait := some 3, pc := 0x300, keys := State.reset.keys.set 2 true })
      (fun t => t.wait == none && t.pc == 0x200 && t.keyPressed 2) = true := by decide
theorem test_reset_font :
    [0x050, 0x051, 0x09B, 0x09F, 0x0A0, 0x04F].map State.reset.memRead =
      [some 0xF0, some 0x90, some 0xF0, some 0x80, some 0, some 0] := by decide
theorem test_load_image :
    ends (perform (.load [0x12, 0x00]) { State.reset with mem := [(0x201, 0x77), (0x202, 0x78)] })
      (fun t => t.mem == [(0x200, 0x12), (0x202, 0x78)] && t.result == some .ok) = true := by decide

/-! ### Witnesses: for each statement with hypotheses, states and operands that meet them -/

/-- `60 05` at `PC`. -/
def withLd : State := { State.reset with mem := [(0x200, 0x60), (0x201, 0x05)] }

theorem test_witness_StepRuns_free :
    withLd.wait = none ∧ withLd.memRead withLd.pc.toNat = some 0x60 ∧ withLd.memRead (withLd.pc.toNat + 1) = some 0x05 ∧
    decode (0x60#8 ++ 0x05#8) = .ok (.ldVxNn 0 5) ∧ withLd.pending = [] := by decide
theorem test_witness_StepRuns_command :
    let s : State := { State.reset with pc := 0xFFE, mem := [(0xFFE, 0xC0), (0xFFF, 0x0F)], pending := [.cycle 0xA7] }
    s.wait = none ∧ s.memRead s.pc.toNat = some 0xC0 ∧ s.memRead (s.pc.toNat + 1) = some 0x0F ∧
    decode (0xC0#8 ++ 0x0F#8) = .ok (.rndVxNn 0 0x0F) ∧ s.pending = [.cycle 0xA7] ∧
    ends (step s) (fun t => t.reg 0 == 0x07 && t.pc == 0x1000 && t.pending == []) = true := by decide
theorem test_witness_CommandsInOrder :
    let s : State := { State.reset with dt := 2, pending := [.tick, .reset] }
    s.pending = .tick :: [.reset] ∧ ends (step s) (fun t => t.dt == 1 && t.pending == [.reset]) = true := by decide
theorem test_witness_EncodeOfDecodedWord :
    decode 0xFFFF = .error (.unknownOpcode 0xFFFF) ∧ decode 0x9FFF = .ok (.sneVxVy 0xF 0xF 0xF) := by
  decide
theorem test_witness_Fetch_last : State.reset.wait = none ∧ (0xFFE#16).toNat ≤ 0x0FFE := by decide
theorem test_witness_Fetch_half :
    ({ State.reset with pc := 0xFFF } : State).wait = none ∧ (0xFFF#16).toNat = 0x0FFF := by decide
theorem test_witness_Fetch_out :
    ({ State.reset with pc := 0x1000 } : State).wait = none ∧ 0x1000 ≤ (0x1000#16).toNat := by decide
theorem test_witness_UnknownOpcode :
    State.reset.wait = none ∧ State.reset.memRead State.reset.pc.toNat = some 0x00 ∧
    State.reset.memRead (State.reset.pc.toNat + 1) = some 0x00 ∧ wellFormedWord (0x00#8 ++ 0x00#8) = false := by decide
theorem test_witness_Precise :
    ends (runCycle State.reset)
      (fun t => t.result == some (.unknownOpcode 0x200 0x0000) &&
        (Result.unknownOpcode 0x200 0x0000).isCondition) = true := by decide
theorem test_witness_ByInstr_drw :
    ends (exec (.drwVxVyN 0 1 2) { State.reset with i := 0xFFF })
      (fun t => t.result == some (.invalidMemoryAccess 0x200 0x1000) && t.fb == clearFrame) = true := by decide
theorem test_witness_DrawRead :
    (∀ x nn, Instr.cls ≠ .rndVxNn x nn) ∧ ({ State.reset with wait := some 3 } : State).wait ≠ none :=
  ⟨fun _ _ h => (by cases h), by decide⟩
theorem test_witness_Drw_bounds :
    ends (exec (.drwVxVyN 0 1 1) { State.reset with i := 0xFFF, mem := [(0xFFF, 0x80)] }) (fun t => t.lit 0 0 &&
      t.reg 0xF == 0) = true ∧
    ends (exec (.drwVxVyN 0 1 0) { State.reset with i := 0xFFF, v := State.reset.v.set 15 1 })
      (fun t => t.fb == clearFrame && t.reg 0xF == 0 && t.result == some .ok) = true := by decide
theorem test_witness_Drw_covers :
    SpriteCovers { State.reset with i := 0x050 } 0x050 5 0 0 0 3 ∧ ¬SpriteCovers { State.reset with i :=
      0x050 } 0x050 1 0 0 0 4 := by
  refine ⟨⟨0, 3, 0xF0, by decide⟩, ?_⟩
  rintro ⟨r, c, sprite, hr, hc, hm, hb, -, hcol⟩
  have h0 : r = 0 := by omega
  subst h0
  have : sprite = 0xF0 := by
    have h : State.memRead { State.reset with i := 0x050 } (0x050 + 0) = some 0xF0 := by decide
    exact (Option.some.inj (h.symm.trans hm)).symm
  subst this
  have h4 : c = 4 := by
    have h4 : (4 : Nat) = (0 + c) % 64 := hcol
    omega
  subst h4
  exact absurd hb (by decide)
theorem test_witness_DrwTwice :
    (0x0#4 ≠ 0xF ∧ 0x1#4 ≠ 0xF ∧ (0x050#16).toNat + (5#4).toNat ≤ 0x1000) ∧
    ends (exec (.drwVxVyN 0 1 5) { State.reset with i := 0x050 }) (fun t => t.lit 0 0 &&
      ends (exec (.drwVxVyN 0 1 5) t) (fun u => u.fb == clearFrame && u.reg 0xF == 1)) = true := by decide
theorem test_witness_Ret_full :
    let s : State := { State.reset with sp := 16, stack := State.reset.stack.set 15 0x2AA }
    0 < s.sp.val ∧ ends (exec .ret s) (fun t => t.pc == 0x2AA && t.sp == 15) = true := by decide
theorem test_witness_Jp_self : (0x200#12).zeroExtend 16 = State.reset.pc ∧
    ends (exec (.jpNnn 0x200) State.reset) (fun t => t == { State.reset with result := some .ok }) = true := by decide
theorem test_witness_Call_first : State.reset.sp.val < 16 ∧
    ends (exec (.callNnn 0x300) State.reset) (fun t => t.stack[0] == 0x202 && t.sp == 1) = true := by decide
theorem test_witness_CallThenRet : State.reset.sp.val < 16 ∧
    ends (exec (.callNnn 0x300) State.reset) (fun t =>
      ends (exec .ret { t with pc := 0x345 }) (fun u => u.pc == 0x202 && u.sp == 0)) = true := by decide
theorem test_witness_LdB_last :
    let s : State := { State.reset with i := 0xFFD, v := State.reset.v.set 0 100 }
    s.mem.wf = true ∧ ¬0xFFE ≤ s.i.toNat ∧ ends (exec (.ldBVx 0) s) (fun t => t.mem == [(0xFFD, 1)]) = true := by decide
theorem test_witness_LdB_out : State.reset.mem.wf = true ∧ 0xFFE ≤ (0xFFE#16).toNat := by decide
theorem test_witness_Dump_edges :
    State.reset.mem.wf = true ∧ ¬0x1000 ≤ (0xFFF#16).toNat + (0#4).toNat ∧ 0x1000 ≤ (0xFFF#16).toNat + (1#4).toNat :=
      by decide
theorem test_witness_Load_last :
    ends (exec (.ldVxMem 0) { State.reset with i := 0xFFF, mem := [(0xFFF, 0x42)] })
      (fun t => t.reg 0 == 0x42) = true := by decide
theorem test_witness_StoredCode :
    let s : State := { State.reset with i := 0xFFE, v := (State.reset.v.set 0 0x65).set 1 0x99 }
    s.mem.wf = true ∧ s.i.toNat + (1#4).toNat < 0x1000 ∧ 0#4 < 1#4 ∧
    ends (exec (.ldMemVx 1) s) (fun t => t.mem == [(0xFFE, 0x65), (0xFFF, 0x99)]) = true := by decide
theorem test_witness_Poll_edge :
    let s : State := { State.reset with wait := some 3, edge := some 0xF }
    s.wait = some 3 ∧ s.edge = some 0xF ∧
    ends (runCycle s) (fun t => t.reg 3 == 0xF && t.wait == none && t.edge == none && t.pc == 0x202) = true := by decide
theorem test_witness_Poll_no_edge :
    let s : State := { State.reset with wait := some 3 }
    s.wait = some 3 ∧ s.edge = none ∧ s.pending = [] ∧
    ends (runCycle s) (fun t => t.pc == 0x200 && t.wait == some 3 && t.result == some .awaiting) = true := by decide
theorem test_witness_WaitEnds :
    let s : State := { State.reset with wait := some 3, edge := some 5 }
    s.wait = some 3 ∧ ends (perform (.cycle 0) s) (fun t => t.wait != some 3 && t.reg 3 == 5) = true ∧
      ends (perform .reset s) (fun t => t.wait != some 3) = true := by decide
theorem test_witness_SetKey_edge :
    let s : State := { State.reset with wait := some 0 }
    (true = true ∧ s.keyPressed 4 = false ∧ s.wait ≠ none ∧ s.edge = none) ∧
    ends (perform (.setKey 4 true) s) (fun t => t.edge == some 4 && t.keyPressed 4) = true := by decide
theorem test_witness_Load_3584 : State.reset.mem.wf = true ∧ (List.replicate 3584 (1#8)).length ≤ 3584 :=
  ⟨by decide, by simp⟩
theorem test_witness_Load_3585 : State.reset.mem.wf = true ∧ ¬(List.replicate 3585 (1#8)).length ≤ 3584 ∧
    perform (.load (List.replicate 3585 1)) State.reset = .next { State.reset with result := some (.imageTooLarge 3585) } :=
  ⟨by decide, by simp, by simp [perform, commandLoad, Config.maxImage, Config.memSize, Config.progBase]⟩
theorem test_witness_KeysWritten : (∀ k p, Command.tick ≠ .setKey k p) ∧
    ends (perform .tick State.reset) (fun t => t.keys == State.reset.keys) = true :=
  ⟨fun _ _ h => (by cases h), by decide⟩
theorem test_witness_StateWriters :
    ends (exec .cls litOrigin) (fun t => t.fb != litOrigin.fb) = true ∧
    ends (exec (.ldMemVx 0) { State.reset with i := 0x300, v := State.reset.v.set 0 1 })
      (fun t => t.mem != []) = true := by decide
theorem test_witness_RegisterWriters :
    (0x2#4 ∉ destinations (.addVxVy 0 1)) ∧ ends (exec (.addVxVy 0 1) State.reset) (fun _ => true) = true := by decide
theorem test_witness_StepKeepsInv :
    State.reset.Inv ∧ ends (step State.reset) (fun t => t.pc == 0x202) = true := by decide
theorem test_witness_DeadStack :
    let s : State := { State.reset with sp := 1 }
    AgreeButDeadStack s { s with stack := s.stack.set 1 0xABC } ∧ ends (step s) (fun _ => true) = true := by
  refine ⟨⟨rfl, ?_⟩, by decide⟩
  intro j h hj
  have h0 : j = 0 := by
    have : j < 1 := hj
    omega
  subst h0
  rfl

end Sys2Proof.Tests
end

section
/-! SUPPORT. What one instruction can write (10_state.md, section 1), said once for all 34, and from it the writers of each
element and of the general registers. -/

namespace Sys2Proof.Machine

/-! ### The index register stays below 0x1000 (10_state.md R16) -/

theorem zext16_lt (nnn : Addr12) : (zext16 nnn).toNat < 0x1000 := by
  have := nnn.isLt
  simp [zext16]
  omega

theorem indexSum_lt (w : Word) (b : Byte) : (indexSum w b).toNat < 0x1000 := by
  rw [indexSum, BitVec.toNat_and]
  exact Nat.lt_of_le_of_lt Nat.and_le_right (by decide)

theorem glyphAddress_lt (b : Byte) : (glyphAddress b).toNat < 0x1000 := by
  have hnibble : (b &&& 0x0F).toNat ≤ 0x0F := by
    rw [BitVec.toNat_and]
    exact Nat.and_le_right
  rw [glyphAddress, fontBase, BitVec.toNat_ofNat]
  exact Nat.lt_of_le_of_lt (Nat.mod_le _ _) (by omega)

/-! ### The effect of an instruction -/

/-- The registers `i` may write: its destinations, and VF for a flag producer (10_state.md R15). -/
def writtenRegs (i : Instr) : List Reg :=
  if producesFlag i then 0xF :: destinations i else destinations i

/-- `Effect s i u`: executing `i` in `s` may leave `u`, before `PC` and the result of the cycle are set. One constructor
per set of elements that instructions write. -/
inductive Effect (s : State) : Instr → State → Prop where
  /-- A jump, a skip or a condition. -/
  | pcOnly (i : Instr) : Effect s i s
  | regs {i : Instr} {v : Vector Byte 16} (kept : RegsKept (writtenRegs i) s { s with v := v }) :
      Effect s i { s with v := v }
  | clear : Effect s .cls { s with fb := clearFrame }
  | draw (x y : Reg) (n : Nibble) (fb : FrameBuffer) (flag : Byte) :
      Effect s (.drwVxVyN x y n) (State.setReg { s with fb := fb } flagReg flag)
  | index {i : Instr} {w : Word} (writer : (∃ nnn, i = .ldINnn nnn) ∨ ∃ x, i = .addIVx x ∨ i = .ldFVx x)
      (lt : w.toNat < 0x1000) : Effect s i { s with i := w }
  | stores {i : Instr} (writer : ∃ x, i = .ldBVx x ∨ i = .ldMemVx x) (base : Nat) (bs : List Byte) :
      Effect s i (s.writeBlock base bs)
  | pop : Effect s .ret s.drop
  | push (nnn : Addr12) (w : Word) (room : s.sp.val < 16) : Effect s (.callNnn nnn) (s.push w room)
  | delay (x : Reg) (b : Byte) : Effect s (.ldDtVx x) { s with dt := b }
  | sound (x : Reg) (b : Byte) : Effect s (.ldStVx x) { s with st := b }
  | await (x : Reg) : Effect s (.ldVxK x) { s with wait := some x, edge := none }

/-- The outcome `o` of `i` in `s` is a next state: an effect of `i`, then `PC` and the result. -/
def HasEffect (s : State) (i : Instr) (o : Host.Outcome State Fault Refusal) : Prop :=
  ∃ u p r, Effect s i u ∧ o = .next { u with pc := p, result := r }

variable {s t u : State} {i : Instr}

theorem Effect.jumpTo (h : Effect s i u) (target : Word) : HasEffect s i (jumpTo target u) := ⟨u, _, _, h, rfl⟩

theorem Effect.advance (h : Effect s i u) : HasEffect s i (advance u) := h.jumpTo _

theorem hasEffect_skipIf (cond : Bool) : HasEffect s i (skipIf cond s) := (Effect.pcOnly i).jumpTo _

theorem hasEffect_raise (c : Result) : HasEffect s i (raise c s) := ⟨s, _, _, .pcOnly i, rfl⟩

/-- An access through `I` has its effect after the bounds check, which else raises a condition (20_memory.md R33). -/
theorem hasEffect_boundsChecked (n : Nat) (h : Effect s i u) :
    HasEffect s i (if s.blockOutOfBounds n then raise s.blockCondition s else advance u) := by
  split
  · exact hasEffect_raise _
  · exact h.advance

theorem regsKept_setReg {xs : List Reg} {x : Reg} (b : Byte) (hx : x ∈ xs) : RegsKept xs s (s.setReg x b) :=
  fun _ hz => reg_setReg_ne s b fun hzx => hz (hzx ▸ hx)

theorem RegsKept.trans {xs : List Reg} (h : RegsKept xs s t) (h' : RegsKept xs t u) : RegsKept xs s u :=
  fun z hz => (h' z hz).trans (h z hz)

theorem Effect.setReg {x : Reg} (b : Byte) (hx : x ∈ writtenRegs i) : Effect s i (s.setReg x b) :=
  .regs (regsKept_setReg b hx)

/-- A flag producer writes VF and its destination. -/
theorem hasEffect_finishFlagged {x : Reg} (flag b : Byte) (hflag : flagReg ∈ writtenRegs i) (hx : x ∈ writtenRegs i) :
    HasEffect s i (finishFlagged x flag b s) :=
  Effect.advance (u := (s.setReg flagReg flag).setReg x b)
    (.regs ((regsKept_setReg flag hflag).trans (regsKept_setReg b hx)))

theorem State.setRegsFrom_eq_with_v (s : State) (k : Nat) (bs : List Byte) :
    s.setRegsFrom k bs = { s with v := (s.setRegsFrom k bs).v } := by
  induction bs generalizing s k with
  | nil => rfl
  | cons b bs ih => exact ih (s.setReg (BitVec.ofNat 4 k) b) (k + 1)

/-- FX65 writes `V[0..x]` and no other register (44_index_memory.md R86). -/
theorem Effect.loadRegs (x : Reg) (bs : List Byte) (hbs : bs.length = x.toNat + 1) :
    Effect s (.ldVxMem x) (s.setRegsFrom 0 bs) := by
  rw [State.setRegsFrom_eq_with_v]
  refine .regs ?_
  rw [← State.setRegsFrom_eq_with_v]
  intro z hz
  have hx := x.isLt
  rw [reg_setRegsFrom bs s 0 (by omega), dif_neg]
  rintro ⟨-, hlt⟩
  refine hz (List.mem_map.mpr ⟨z.toNat, List.mem_range.mpr (by omega), ?_⟩)
  simp

/-- Every instruction answers a next state, with one of the effects. -/
theorem exec_hasEffect (i : Instr) (s : State) : HasEffect s i (exec i s) := by
  cases i with
  | cls => exact Effect.clear.advance
  | ret =>
    by_cases live : 0 < s.sp.val
    · rw [exec_ret_live live]; exact Effect.pop.jumpTo _
    · rw [exec_ret_empty (by omega)]; exact hasEffect_raise _
  | callNnn nnn =>
    by_cases room : s.sp.val < 16
    · rw [exec_call_room nnn room]; exact (Effect.push nnn _ room).jumpTo _
    · rw [exec_call_full nnn (by omega)]; exact hasEffect_raise _
  | jpNnn _ | jpV0Nnn _ => exact (Effect.pcOnly _).jumpTo _
  | seVxNn _ _ | sneVxNn _ _ | seVxVy _ _ _ | sneVxVy _ _ _ | skpVx _ | sknpVx _ => exact hasEffect_skipIf _
  | ldVxNn _ _ | addVxNn _ _ | ldVxVy _ _ | orVxVy _ _ | andVxVy _ _ | xorVxVy _ _ | rndVxNn _ _ | ldVxDt _ =>
    exact (Effect.setReg _ (List.mem_singleton_self _)).advance
  | addVxVy _ _ | subVxVy _ _ | shrVx _ _ | subnVxVy _ _ | shlVx _ _ =>
    exact hasEffect_finishFlagged _ _ List.mem_cons_self (List.mem_cons_of_mem _ List.mem_cons_self)
  | ldINnn nnn => exact (Effect.index (.inl ⟨nnn, rfl⟩) (zext16_lt nnn)).advance
  | addIVx x => exact (Effect.index (.inr ⟨x, .inl rfl⟩) (indexSum_lt _ _)).advance
  | ldFVx x => exact (Effect.index (.inr ⟨x, .inr rfl⟩) (glyphAddress_lt _)).advance
  | drwVxVyN x y n => exact hasEffect_boundsChecked n.toNat (.draw x y n _ _)
  | ldBVx x => exact hasEffect_boundsChecked 3 (.stores ⟨x, .inl rfl⟩ _ _)
  | ldMemVx x => exact hasEffect_boundsChecked (x.toNat + 1) (.stores ⟨x, .inr rfl⟩ _ _)
  | ldVxMem x => exact hasEffect_boundsChecked (x.toNat + 1) (.loadRegs x _ (readBlock_length _ _ _))
  | ldDtVx x => exact (Effect.delay x _).advance
  | ldStVx x => exact (Effect.sound x _).advance
  | ldVxK x => exact ⟨_, _, _, .await x, rfl⟩

theorem exec_effect (h : exec i s = .next t) : ∃ u p r, Effect s i u ∧ t = { u with pc := p, result := r } := by
  obtain ⟨u, p, r, he, hu⟩ := exec_hasEffect i s
  exact ⟨u, p, r, he, Host.Outcome.next.inj (h.symm.trans hu)⟩

theorem Effect.regsKept (h : Effect s i u) : RegsKept (writtenRegs i) s u := by
  cases h with
  | regs kept => exact kept
  | draw x y n fb flag => exact regsKept_setReg (s := { s with fb := fb }) flag List.mem_cons_self
  | _ => exact fun _ _ => rfl

/-- Settles O15: each effect leaves alone every element its instruction is not listed for. -/
theorem stateWriters : Obligations.StateWriters := by
  intro i s t h
  obtain ⟨u, p, r, he, rfl⟩ := exec_effect h
  cases he with
  | index writer _ => simp [KeysKept, PortsKept, State.keyPressed, writer]
  | stores writer _ _ => simp [KeysKept, PortsKept, State.keyPressed, writer]
  | _ => simp [KeysKept, PortsKept, State.keyPressed]

/-- Settles O16: each effect writes only the registers `writtenRegs` lists. -/
theorem registerWriters : Obligations.RegisterWriters := by
  intro i s t h
  obtain ⟨u, p, r, he, rfl⟩ := exec_effect h
  exact he.regsKept

end Sys2Proof.Machine
end

section
/-! SUPPORT. What a cycle can do, from the effect of an instruction, and from it the writers of `KEYS` and the invariant. -/

namespace Sys2Proof.Machine

variable {s t u : State} {i : Instr}

/-- What a cycle can do (40_cycle.md R49): a poll completes the wait or finds no edge; with no wait pending, a condition
of the fetch or the decoder is raised, or an instruction is executed. -/
theorem runCycle_cases (h : runCycle s = .next t) :
    (∃ x k, s.wait = some x ∧ s.edge = some k ∧
      t = { s.setReg x (k.zeroExtend 8) with wait := none, edge := none, pc := s.pc + 2, result := some .ok }) ∨
    (s.wait ≠ none ∧ s.edge = none ∧ t = { s with result := some .awaiting }) ∨
    (s.wait = none ∧ ∃ c, raise c s = .next t) ∨
    (s.wait = none ∧ ∃ i, exec i s = .next t) := by
  cases hw : s.wait with
  | some x =>
    rw [runCycle_waiting hw] at h
    obtain ⟨k, hk, ht⟩ | ⟨hk, ht⟩ := keyWaitPoll_cases h
    · exact .inl ⟨x, k, rfl, hk, ht⟩
    · exact .inr (.inl ⟨nofun, hk, by rw [ht, hw]⟩)
  | none =>
    rw [runCycle_running hw] at h
    obtain ⟨c, -, hc⟩ | ⟨w, -, -, -, hu⟩ | ⟨-, i, -, -, hi⟩ := fetchDecodeExecute_cases s
    · exact .inr (.inr (.inl ⟨rfl, c, hc ▸ h⟩))
    · exact .inr (.inr (.inl ⟨rfl, _, hu ▸ h⟩))
    · exact .inr (.inr (.inr ⟨rfl, i, hi ▸ h⟩))

/-! ### The writers of `KEYS` (10_state.md R27) -/

/-- No cycle writes `KEYS`. -/
theorem runCycle_keysKept (h : runCycle s = .next t) : KeysKept s t := by
  obtain ⟨x, k, -, -, rfl⟩ | ⟨-, -, rfl⟩ | ⟨-, c, hc⟩ | ⟨-, i, hi⟩ := runCycle_cases h
  · exact fun _ => rfl
  · exact fun _ => rfl
  · cases hc
    exact fun _ => rfl
  · obtain ⟨-, -, -, -, -, -, -, -, hkeys, -⟩ := stateWriters i s t hi
    exact hkeys

theorem commandLoad_long {image : List Byte} (h : Config.maxImage < image.length) (s : State) :
    commandLoad image s = { s with result := some (.imageTooLarge image.length) } := if_pos h

theorem commandLoad_fits {image : List Byte} (h : ¬Config.maxImage < image.length) (s : State) :
    commandLoad image s = { s.writeBlock Config.progBase image with result := some .ok } := if_neg h

theorem commandLoad_keys (image : List Byte) (s : State) : (commandLoad image s).keys = s.keys := by
  by_cases long : Config.maxImage < image.length
  · rw [commandLoad_long long]
  · rw [commandLoad_fits long, State.writeBlock_keys]

/-- Settles O57, command by command. -/
theorem keysWrittenBySetKeyOnly : Obligations.KeysWrittenBySetKeyOnly := by
  intro c s t h
  cases c with
  | reset => cases h; exact ⟨fun _ _ => rfl, nofun⟩
  | load image => cases h; exact ⟨fun _ => State.keyPressed_congr (commandLoad_keys image s), nofun⟩
  | cycle r => exact ⟨fun _ => runCycle_keysKept (s := { s with draw := r }) h, nofun⟩
  | tick => cases h; exact ⟨fun _ _ => rfl, fun _ _ => rfl⟩
  | setKey k p => cases h; exact ⟨fun hne => absurd rfl (hne k p), fun _ _ => rfl⟩

/-! ### The invariant -/

/-- Settles O59: nothing is listed, `I` is 0 and `EDGE` is none. -/
theorem resetStateHasInv : Obligations.ResetStateHasInv :=
  ⟨memory_reset_wf, by decide, fun _ => rfl⟩

theorem State.Inv.writeBlock (h : s.Inv) (base : Nat) (bs : List Byte) : (s.writeBlock base bs).Inv := by
  obtain ⟨hmem, hi, hedge⟩ := h
  exact ⟨memPutBlock_wf bs hmem base, hi, hedge⟩

/-- Every effect keeps the invariant: `I` is written with 12 bits, stores keep the canonical form, and a wait begins
with no edge latched. -/
theorem Effect.inv (he : Effect s i u) (h : s.Inv) : u.Inv := by
  obtain ⟨hmem, hi, hedge⟩ := h
  cases he with
  | index _ lt => exact ⟨hmem, lt, hedge⟩
  | stores _ base bs => exact State.Inv.writeBlock ⟨hmem, hi, hedge⟩ base bs
  | await x => exact ⟨hmem, hi, nofun⟩
  | _ => exact ⟨hmem, hi, hedge⟩

theorem exec_inv (h : s.Inv) (hx : exec i s = .next t) : t.Inv := by
  obtain ⟨u, p, r, he, rfl⟩ := exec_effect hx
  exact he.inv h

theorem runCycle_inv (h : s.Inv) (hc : runCycle s = .next t) : t.Inv := by
  have ⟨hmem, hi, _⟩ := h
  obtain ⟨x, k, -, -, rfl⟩ | ⟨-, -, rfl⟩ | ⟨-, c, hr⟩ | ⟨-, i, hx⟩ := runCycle_cases hc
  · exact ⟨hmem, hi, fun _ => rfl⟩
  · exact h
  · cases hr
    exact h
  · exact exec_inv h hx

theorem commandReset_inv (s : State) : (commandReset s).Inv := resetStateHasInv

theorem commandLoad_inv (image : List Byte) (h : s.Inv) : (commandLoad image s).Inv := by
  by_cases long : Config.maxImage < image.length
  · rw [commandLoad_long long]
    exact h
  · rw [commandLoad_fits long]
    exact h.writeBlock Config.progBase image

/-- `SET_KEY` latches an edge only while a wait is pending (60_exceptions.md R104, D21). -/
theorem commandSetKey_inv (k : Key) (p : Bool) (h : s.Inv) : (commandSetKey k p s).Inv := by
  obtain ⟨hmem, hi, hedge⟩ := h
  refine ⟨hmem, hi, fun hw => ?_⟩
  have hw : s.wait = none := hw
  have hfresh : s.freshEdge k p = false := by simp [State.freshEdge, hw]
  simp [commandSetKey, hfresh, hedge hw]

theorem perform_inv {c : Command} (h : s.Inv) (hp : perform c s = .next t) : t.Inv := by
  cases c with
  | reset => cases hp; exact commandReset_inv s
  | load image => cases hp; exact commandLoad_inv image h
  | cycle r => exact runCycle_inv (s := { s with draw := r }) h hp
  | tick => cases hp; exact h
  | setKey k p => cases hp; exact commandSetKey_inv k p h

/-- Taking a command changes the input ports only. -/
theorem takeCommand_inv (h : s.Inv) : (takeCommand s).2.Inv := by
  cases hp : s.pending with
  | nil => rw [takeCommand_nil hp]; exact h
  | cons c rest => rw [takeCommand_cons hp]; exact h

/-- Settles O58: taking the command keeps the invariant, and so does performing it. -/
theorem stepKeepsInv : Obligations.StepKeepsInv :=
  fun _ _ h hs => perform_inv (takeCommand_inv h) hs

end Sys2Proof.Machine
end

section
/-! SUPPORT. Stack entries at or above `SP` cannot be observed (10_state.md R18, D34). A function of the state that neither
reads nor writes the stack commutes with replacing it; RET and CALL, which use it, touch live entries only. -/

namespace Sys2Proof.Machine

variable {s s' t : State}

/-- The state with the stack entries `k`, its pointer kept. -/
def State.withStack (s : State) (k : Vector Word 16) : State := { s with stack := k }

theorem agreeButDeadStack_iff :
    AgreeButDeadStack s s' ↔
      ∃ k, s' = s.withStack k ∧ ∀ j (h : j < 16), j < s.sp.val → k[j] = s.stack[j] := by
  constructor
  · rintro ⟨hs', hlive⟩
    exact ⟨s'.stack, hs', hlive⟩
  · rintro ⟨k, rfl, hlive⟩
    exact ⟨rfl, hlive⟩

/-- Steps of `f` from states that agree but for dead stack entries lead to such states. -/
def HidesDeadStack (f : State → Host.Outcome State Fault Refusal) : Prop :=
  ∀ s s' t, AgreeButDeadStack s s' → f s = .next t → ∃ t', f s' = .next t' ∧ AgreeButDeadStack t t'

/-- Steps of `f` keep the stack and its pointer, and are the same steps over any other stack entries. -/
def IgnoresStack (f : State → Host.Outcome State Fault Refusal) : Prop :=
  ∀ s t, f s = .next t → StackKept s t ∧ ∀ k, f (s.withStack k) = .next (t.withStack k)

theorem IgnoresStack.hidesDeadStack {f : State → Host.Outcome State Fault Refusal} (hf : IgnoresStack f) :
    HidesDeadStack f := by
  intro s s' t hagree ht
  obtain ⟨k, rfl, hlive⟩ := agreeButDeadStack_iff.mp hagree
  obtain ⟨⟨hstack, hsp⟩, hany⟩ := hf s t ht
  refine ⟨t.withStack k, hany k, agreeButDeadStack_iff.mpr ⟨k, rfl, ?_⟩⟩
  rwa [hstack, hsp]

/-! ### Instructions -/

theorem raise_ignoresStack (c : Result) : IgnoresStack (raise c) := by
  intro s t h
  cases h
  exact ⟨⟨rfl, rfl⟩, fun _ => rfl⟩

theorem setRegsFrom_withStack (s : State) (n : Nat) (bs : List Byte) (k : Vector Word 16) :
    (s.withStack k).setRegsFrom n bs = (s.setRegsFrom n bs).withStack k := by
  induction bs generalizing s n with
  | nil => rfl
  | cons b bs ih => exact ih (s.setReg (BitVec.ofNat 4 n) b) (n + 1)

/-- An access through `I` ignores the stack if the update `g` after its bounds check does. -/
theorem ignoresStack_of_boundsChecked {f : State → Host.Outcome State Fault Refusal} {n : Nat} {g : State → State}
    (hf : ∀ s, f s = if s.blockOutOfBounds n then raise s.blockCondition s else advance (g s))
    (hkept : ∀ s, StackKept s (g s)) (hany : ∀ s k, g (s.withStack k) = (g s).withStack k) : IgnoresStack f := by
  intro s t h
  have hbounds (k : Vector Word 16) : (s.withStack k).blockOutOfBounds n = s.blockOutOfBounds n := rfl
  rw [hf] at h
  split at h
  · next out =>
    cases h
    refine ⟨⟨rfl, rfl⟩, fun k => ?_⟩
    rw [hf, hbounds, if_pos out]
    rfl
  · next inside =>
    cases h
    refine ⟨hkept s, fun k => ?_⟩
    rw [hf, hbounds, if_neg inside, hany]
    rfl

/-- RET reads the top entry, which is live, and drops it. -/
theorem exec_ret_hidesDeadStack : HidesDeadStack (exec .ret) := by
  intro s s' t hagree h
  obtain ⟨k, rfl, hlive⟩ := agreeButDeadStack_iff.mp hagree
  by_cases live : 0 < s.sp.val
  · have htop : (s.withStack k).top live = s.top live := hlive (s.sp.val - 1) (by omega) (by omega)
    rw [exec_ret_live live] at h
    cases h
    refine ⟨_, exec_ret_live (s := s.withStack k) live, agreeButDeadStack_iff.mpr ⟨k, ?_, fun j h hj => ?_⟩⟩
    · rw [htop]
      rfl
    · exact hlive j h (Nat.lt_of_lt_of_le hj (Nat.sub_le _ _))
  · have empty : s.sp.val = 0 := by omega
    rw [exec_ret_empty empty] at h
    obtain ⟨t', ht', hagree'⟩ := (raise_ignoresStack _).hidesDeadStack _ _ _ hagree h
    exact ⟨t', (exec_ret_empty (s := s.withStack k) empty).trans ht', hagree'⟩

/-- CALL writes the entry at `SP`, the same value in both states, and makes it live. -/
theorem exec_call_hidesDeadStack (nnn : Addr12) : HidesDeadStack (exec (.callNnn nnn)) := by
  intro s s' t hagree h
  obtain ⟨k, rfl, hlive⟩ := agreeButDeadStack_iff.mp hagree
  by_cases room : s.sp.val < 16
  · rw [exec_call_room nnn room] at h
    cases h
    refine ⟨_, exec_call_room nnn (s := s.withStack k) room,
      agreeButDeadStack_iff.mpr ⟨k.set s.sp.val (s.pc + 2) room, rfl, fun j h hj => ?_⟩⟩
    have hj : j < s.sp.val + 1 := hj
    show (k.set s.sp.val (s.pc + 2) room)[j] = (s.stack.set s.sp.val (s.pc + 2) room)[j]
    by_cases htop : s.sp.val = j
    · subst htop; simp
    · rw [Vector.getElem_set_ne _ _ htop, Vector.getElem_set_ne _ _ htop]
      exact hlive j h (by omega)
  · have full : s.sp.val = 16 := by omega
    rw [exec_call_full nnn full] at h
    obtain ⟨t', ht', hagree'⟩ := (raise_ignoresStack _).hidesDeadStack _ _ _ hagree h
    exact ⟨t', (exec_call_full nnn (s := s.withStack k) full).trans ht', hagree'⟩

/-- Every instruction but RET and CALL ignores the stack. -/
theorem exec_ignoresStack {i : Instr} (hret : i ≠ .ret) (hcall : ∀ nnn, i ≠ .callNnn nnn) : IgnoresStack (exec i) := by
  cases i with
  | ret => exact absurd rfl hret
  | callNnn nnn => exact absurd rfl (hcall nnn)
  | drwVxVyN x y n => exact ignoresStack_of_boundsChecked (fun _ => rfl) (fun _ => ⟨rfl, rfl⟩) fun _ _ => rfl
  | ldBVx x => exact ignoresStack_of_boundsChecked (fun _ => rfl) (fun _ => ⟨rfl, rfl⟩) fun _ _ => rfl
  | ldMemVx x => exact ignoresStack_of_boundsChecked (fun _ => rfl) (fun _ => ⟨rfl, rfl⟩) fun _ _ => rfl
  | ldVxMem x =>
    exact ignoresStack_of_boundsChecked (fun _ => rfl)
      (fun _ => ⟨State.setRegsFrom_stack .., State.setRegsFrom_sp ..⟩) fun s k => setRegsFrom_withStack s 0 _ k
  | _ =>
    intro s t h
    cases h
    exact ⟨⟨rfl, rfl⟩, fun _ => rfl⟩

theorem exec_hidesDeadStack (i : Instr) : HidesDeadStack (exec i) := by
  by_cases hret : i = .ret
  · subst hret
    exact exec_ret_hidesDeadStack
  · by_cases hcall : ∃ nnn, i = .callNnn nnn
    · obtain ⟨nnn, rfl⟩ := hcall
      exact exec_call_hidesDeadStack nnn
    · exact (exec_ignoresStack hret (not_exists.mp hcall)).hidesDeadStack

/-! ### Cycles and commands -/

theorem keyWaitPoll_edge {x : Reg} {k : Key} (h : s.edge = some k) :
    keyWaitPoll x s = advance { s.setReg x (k.zeroExtend 8) with wait := none, edge := none } := by
  simp [keyWaitPoll, h]

theorem keyWaitPoll_noEdge {x : Reg} (h : s.edge = none) :
    keyWaitPoll x s = .next { s with result := some .awaiting } := by
  simp [keyWaitPoll, h]

theorem keyWaitPoll_ignoresStack (x : Reg) : IgnoresStack (keyWaitPoll x) := by
  intro s t h
  obtain ⟨key, hkey, rfl⟩ | ⟨hnone, rfl⟩ := keyWaitPoll_cases h
  · exact ⟨⟨rfl, rfl⟩, fun k => keyWaitPoll_edge (s := s.withStack k) hkey⟩
  · exact ⟨⟨rfl, rfl⟩, fun k => keyWaitPoll_noEdge (s := s.withStack k) hnone⟩

/-- Whether a cycle polls, and which instruction it runs, depends on `WAIT`, `PC` and memory alone, so both states
do the same. -/
theorem runCycle_hidesDeadStack : HidesDeadStack runCycle := by
  intro s s' t hagree h
  have hwait : s'.wait = s.wait := by rw [hagree.1]
  have hpc : s'.pc = s.pc := by rw [hagree.1]
  have hfetch : s'.fetch = s.fetch := by rw [hagree.1]; rfl
  cases hw : s.wait with
  | some x =>
    rw [runCycle_waiting hw] at h
    rw [runCycle_waiting (hwait.trans hw)]
    exact (keyWaitPoll_ignoresStack x).hidesDeadStack s s' t hagree h
  | none =>
    rw [runCycle_running hw] at h
    obtain ⟨c, hf, hx⟩ | ⟨w, e, hf, hd, hx⟩ | ⟨w, i, hf, hd, hx⟩ := fetchDecodeExecute_cases s
    · have hx' : runCycle s' = raise c s' := runCycle_fetch_error (hwait.trans hw) (hfetch.trans hf)
      rw [hx] at h
      rw [hx']
      exact (raise_ignoresStack c).hidesDeadStack s s' t hagree h
    · have hx' : runCycle s' = raise (.unknownOpcode s.pc w) s' :=
        hpc ▸ runCycle_unknown (hwait.trans hw) (hfetch.trans hf) hd
      rw [hx] at h
      rw [hx']
      exact (raise_ignoresStack _).hidesDeadStack s s' t hagree h
    · rw [hx] at h
      rw [runCycle_decoded (hwait.trans hw) (hfetch.trans hf) hd]
      exact exec_hidesDeadStack i s s' t hagree h

theorem perform_load_ignoresStack (image : List Byte) : IgnoresStack (perform (.load image)) := by
  intro s t h
  cases h
  by_cases long : Config.maxImage < image.length
  · rw [commandLoad_long long]
    exact ⟨⟨rfl, rfl⟩, fun k => congrArg _ (commandLoad_long long (s.withStack k))⟩
  · rw [commandLoad_fits long]
    exact ⟨⟨rfl, rfl⟩, fun k => congrArg _ (commandLoad_fits long (s.withStack k))⟩

theorem perform_hidesDeadStack (c : Command) : HidesDeadStack (perform c) := by
  intro s s' t hagree h
  obtain ⟨k, rfl, hlive⟩ := agreeButDeadStack_iff.mp hagree
  cases c with
  | reset => exact ⟨t, h, rfl, fun _ _ _ => rfl⟩
  | load image => exact (perform_load_ignoresStack image).hidesDeadStack s _ t hagree h
  | cycle r =>
    exact runCycle_hidesDeadStack { s with draw := r } _ t (agreeButDeadStack_iff.mpr ⟨k, rfl, hlive⟩) h
  | tick => cases h; exact ⟨_, rfl, agreeButDeadStack_iff.mpr ⟨k, rfl, hlive⟩⟩
  | setKey key p => cases h; exact ⟨_, rfl, agreeButDeadStack_iff.mpr ⟨k, rfl, hlive⟩⟩

/-- The next command and the ports depend on no stack entry. -/
theorem takeCommand_agree (h : AgreeButDeadStack s s') :
    (takeCommand s').1 = (takeCommand s).1 ∧ AgreeButDeadStack (takeCommand s).2 (takeCommand s').2 := by
  obtain ⟨k, rfl, hlive⟩ := agreeButDeadStack_iff.mp h
  cases hp : s.pending with
  | nil =>
    rw [takeCommand_nil hp, takeCommand_nil (s := s.withStack k) hp]
    exact ⟨rfl, rfl, hlive⟩
  | cons c rest =>
    rw [takeCommand_cons hp, takeCommand_cons (s := s.withStack k) hp]
    exact ⟨rfl, rfl, hlive⟩

/-- Settles O60: both states take the same command, and every command hides dead entries. -/
theorem deadStackUnobservable : Obligations.DeadStackUnobservable := by
  intro s s' t hagree h
  obtain ⟨hcmd, hports⟩ := takeCommand_agree hagree
  unfold step at h ⊢
  rw [hcmd]
  exact perform_hidesDeadStack _ _ _ t hports h

end Sys2Proof.Machine
end

section
/-! SUPPORT. Commands and the port they arrive on (20_memory.md R37), and instruction bytes in the memory that data
stores write (R40). -/

namespace Sys2Proof.Machine

variable {s t : State}

/-! ### Commands in order -/

/-- A cycle writes no input port: neither a poll, nor a condition, nor an instruction does. -/
theorem runCycle_portsKept (h : runCycle s = .next t) : PortsKept s t := by
  obtain ⟨x, k, -, -, rfl⟩ | ⟨-, -, rfl⟩ | ⟨-, c, hc⟩ | ⟨-, i, hi⟩ := runCycle_cases h
  · exact ⟨rfl, rfl, rfl⟩
  · exact ⟨rfl, rfl, rfl⟩
  · cases hc
    exact ⟨rfl, rfl, rfl⟩
  · obtain ⟨-, -, -, -, -, -, -, -, -, hports⟩ := stateWriters i s t hi
    exact hports

theorem commandLoad_pending (image : List Byte) (s : State) : (commandLoad image s).pending = s.pending := by
  by_cases long : Config.maxImage < image.length
  · rw [commandLoad_long long]
  · rw [commandLoad_fits long, State.writeBlock_pending]

/-- No command writes the list of pending commands (log entry 3). -/
theorem perform_pending {c : Command} (h : perform c s = .next t) : t.pending = s.pending := by
  cases c with
  | reset => cases h; rfl
  | load image => cases h; exact commandLoad_pending image s
  | cycle r =>
    obtain ⟨-, -, hpending⟩ := runCycle_portsKept (s := { s with draw := r }) h
    exact hpending
  | tick => cases h; rfl
  | setKey k p => cases h; rfl

theorem step_cons {c : Command} {rest : List Command} (h : s.pending = c :: rest) :
    step s = perform c { s with pending := rest } := by
  rw [step, takeCommand_cons h]

/-- Settles O7: the oldest command is taken off, and performing it leaves the rest of the list alone. -/
theorem commandsInOrder : Obligations.CommandsInOrder := by
  intro s c rest hp
  refine ⟨step_cons hp, fun t ht => ?_⟩
  rw [step_cons hp] at ht
  exact perform_pending ht

/-! ### Stored bytes are instruction bytes -/

/-- After a register dump from address `a` up (44_index_memory.md R85), the byte at `a + z` is `V[z]`. -/
theorem memGet_writeBlock_regsUpTo {a : Nat} {x z : Reg} (hm : s.mem.wf = true) (hin : a + x.toNat < 0x1000)
    (hz : z ≤ x) : memGet (s.writeBlock a (s.regsUpTo x)).mem (a + z.toNat) = s.reg z := by
  have hz : z.toNat ≤ x.toNat := hz
  have hmem : a + z.toNat < Config.memSize := Nat.lt_of_le_of_lt (Nat.add_le_add_left hz a) hin
  have hblock : a ≤ a + z.toNat ∧ a + z.toNat < a + (s.regsUpTo x).length := by
    rw [regsUpTo_length]
    omega
  rw [State.writeBlock_mem, memGet_memPutBlock _ hm _ _ hmem, dif_pos hblock, regsUpTo_getElem]
  simp

theorem toNat_reg_succ {x z : Reg} (h : z < x) : (z + 1).toNat = z.toNat + 1 := by
  bv_omega

/-- Below 0x10000 the 16-bit address `w + z` does not wrap. -/
theorem toNat_add_zeroExtend {w : Word} {z : Reg} (h : w.toNat + z.toNat < 0x10000) :
    (w + z.zeroExtend 16).toNat = w.toNat + z.toNat := by
  bv_omega

/-- Settles O42: the fetch is in bounds, and its two bytes are the ones the dump stored for `V[z]` and `V[z + 1]`. -/
theorem storedCodeIsFetched : Obligations.StoredCodeIsFetched := by
  intro x z s t hm hin hz hx
  rw [exec_ldMemVx_in x hin] at hx
  cases hx
  have hsucc : (z + 1).toNat = z.toNat + 1 := toNat_reg_succ hz
  have hlt : z.toNat < x.toNat := hz
  have hpc : (s.i + z.zeroExtend 16).toNat = s.i.toNat + z.toNat := toNat_add_zeroExtend (by omega)
  have hhi := memGet_writeBlock_regsUpTo hm hin (z := z) (Nat.le_of_lt hlt)
  have hlo := memGet_writeBlock_regsUpTo hm hin (z := z + 1) (hsucc.trans_le hlt)
  rw [hsucc, ← Nat.add_assoc] at hlo
  have hfetch : (s.i + z.zeroExtend 16).toNat ≤ 0x0FFE := by omega
  rw [fetch_ok hfetch, hpc, hhi, hlo, wordOfBytes]

end Sys2Proof.Machine
end

section
/-! SUPPORT. The decoder and the encoder are inverse (30_encoding.md R44, R45): the decoder answers its instruction on every
word the encoder writes, and on any word either an instruction of that word or the report that it is unknown (R46). -/

namespace Sys2Proof

variable {w : Word}

/-! ### The families that select further -/

theorem decode_family8 (hop : fieldOp w = 0x8) : decode w = decodeFamily8 w := by
  simp [decode, hop]

theorem decode_familyE (hop : fieldOp w = 0xE) : decode w = decodeFamilyE w := by
  simp [decode, hop]

theorem decode_familyF (hop : fieldOp w = 0xF) : decode w = decodeFamilyF w := by
  simp [decode, hop]

/-- Settles O2: the high nibble of the word, and in families 0x8, 0xE and 0xF its low nibble or byte, select the arm the
instruction came from, and the arm reads its fields back. -/
theorem decodeEncodeEveryInstr : Obligations.DecodeEncodeEveryInstr := by
  intro i
  cases i with
  | cls | ret => decide
  | ldVxVy x y | orVxVy x y | andVxVy x y | xorVxVy x y | addVxVy x y | subVxVy x y | shrVx x y | subnVxVy x y
  | shlVx x y =>
    rw [encode, decode_family8 (fieldOp_wordOXYN ..)]
    simp [decodeFamily8]
  | skpVx x | sknpVx x =>
    rw [encode, decode_familyE (fieldOp_wordOXNN ..)]
    simp [decodeFamilyE]
  | ldVxDt x | ldVxK x | ldDtVx x | ldStVx x | addIVx x | ldFVx x | ldBVx x | ldMemVx x | ldVxMem x =>
    rw [encode, decode_familyF (fieldOp_wordOXNN ..)]
    simp [decodeFamilyF]
  | _ => simp [encode, decode]

/-! ### A word is put together from its own fields -/

/-- A field among the low `m` bits is the same field of those bits. -/
theorem extractLsb'_lowBits {v lo n m : Nat} (w : BitVec v) (h : lo + n ≤ m) :
    (w.extractLsb' 0 m).extractLsb' lo n = w.extractLsb' lo n := by
  ext k hk
  have hlow : lo + k < m := by omega
  simp [hlow]

theorem wordOXYN_of_fields {op n : Nibble} (hop : fieldOp w = op) (hn : fieldN w = n) :
    wordOXYN op (fieldX w) (fieldY w) n = w := by
  subst hop hn
  exact word_ext (fieldOp_wordOXYN ..) (fieldX_wordOXYN ..) (fieldY_wordOXYN ..) (fieldN_wordOXYN ..)

theorem wordOXNN_of_fields {op : Nibble} {nn : Byte} (hop : fieldOp w = op) (hnn : fieldNn w = nn) :
    wordOXNN op (fieldX w) nn = w := by
  subst hop hnn
  exact word_ext (fieldOp_wordOXNN ..) (fieldX_wordOXNN ..)
    ((fieldY_wordOXNN ..).trans (extractLsb'_lowBits w (by decide)))
    ((fieldN_wordOXNN ..).trans (extractLsb'_lowBits w (by decide)))

theorem wordONNN_of_fields {op : Nibble} (hop : fieldOp w = op) : wordONNN op (fieldNnn w) = w := by
  subst hop
  exact word_ext (fieldOp_wordONNN ..)
    ((fieldX_wordONNN ..).trans (extractLsb'_lowBits w (by decide)))
    ((fieldY_wordONNN ..).trans (extractLsb'_lowBits w (by decide)))
    ((fieldN_wordONNN ..).trans (extractLsb'_lowBits w (by decide)))

/-! ### What the decoder answers -/

/-- The four sets of R46, each by the fields its family selects by (R44). -/
def UnknownWord (w : Word) : Prop :=
  (fieldOp w = 0x0 ∧ w ≠ 0x00E0 ∧ w ≠ 0x00EE) ∨
  (fieldOp w = 0x8 ∧ fieldN w ∉ [0x0, 0x1, 0x2, 0x3, 0x4, 0x5, 0x6, 0x7, 0xE]) ∨
  (fieldOp w = 0xE ∧ fieldNn w ∉ [0x9E, 0xA1]) ∨
  (fieldOp w = 0xF ∧ fieldNn w ∉ [0x07, 0x0A, 0x15, 0x18, 0x1E, 0x29, 0x33, 0x55, 0x65])

/-- A right answer on the word `w`: an instruction whose word is `w`, or the report that `w` is unknown, which it is. -/
def RightAnswer (w : Word) : Except DecodeError Instr → Prop
  | .ok i => encode i = w
  | .error e => e = .unknownOpcode w ∧ UnknownWord w

theorem decodeFamily0_right (hop : fieldOp w = 0x0) : RightAnswer w (decodeFamily0 w) := by
  unfold decodeFamily0
  split
  · next hw => exact hw.symm
  · next hcls =>
    split
    · next hw => exact hw.symm
    · next hret => exact ⟨rfl, .inl ⟨hop, hcls, hret⟩⟩

theorem decodeFamily8_right (hop : fieldOp w = 0x8) : RightAnswer w (decodeFamily8 w) := by
  unfold decodeFamily8
  split
  case h_10 => exact ⟨rfl, .inr (.inl ⟨hop, by simp_all⟩)⟩
  all_goals exact wordOXYN_of_fields hop ‹_›

theorem decodeFamilyE_right (hop : fieldOp w = 0xE) : RightAnswer w (decodeFamilyE w) := by
  unfold decodeFamilyE
  split
  case h_3 => exact ⟨rfl, .inr (.inr (.inl ⟨hop, by simp_all⟩))⟩
  all_goals exact wordOXNN_of_fields hop ‹_›

theorem decodeFamilyF_right (hop : fieldOp w = 0xF) : RightAnswer w (decodeFamilyF w) := by
  unfold decodeFamilyF
  split
  case h_10 => exact ⟨rfl, .inr (.inr (.inr ⟨hop, by simp_all⟩))⟩
  all_goals exact wordOXNN_of_fields hop ‹_›

/-- The decoder's last arm is family 0xF. -/
theorem nibble_eq_F : ∀ o : Nibble,
    o ∉ [0x0, 0x1, 0x2, 0x3, 0x4, 0x5, 0x6, 0x7, 0x8, 0x9, 0xA, 0xB, 0xC, 0xD, 0xE] → o = 0xF := by
  decide

/-- The decoder answers right on every word: each arm has fixed the fields that its pattern fixes. -/
theorem decode_right (w : Word) : RightAnswer w (decode w) := by
  unfold decode
  split
  -- the families that select further: 0x0, 0x8, 0xE, and 0xF as what is left
  case h_1 hop => exact decodeFamily0_right hop
  case h_9 hop => exact decodeFamily8_right hop
  case h_15 hop => exact decodeFamilyE_right hop
  case h_16 => exact decodeFamilyF_right (nibble_eq_F _ (by simp_all))
  -- the patterns `ONNN` (1, 2, A, B), `OXYN` (5, 9, D) and, for the rest, `OXNN`
  case h_2 hop | h_3 hop | h_11 hop | h_12 hop => exact wordONNN_of_fields hop
  case h_6 hop | h_10 hop | h_14 hop => exact wordOXYN_of_fields hop rfl
  all_goals exact wordOXNN_of_fields ‹_› rfl

/-- Settles O3: a right answer that is an instruction has the word it was decoded from. -/
theorem encodeOfDecodedWord : Obligations.EncodeOfDecodedWord := by
  intro w i h
  have hright := decode_right w
  rwa [h] at hright

/-- An error of the decoder is `UnknownOpcode` of the word itself, on a word of R46's sets. -/
theorem decode_error {e : DecodeError} (h : decode w = .error e) : e = .unknownOpcode w ∧ UnknownWord w := by
  have hright := decode_right w
  rwa [h] at hright

/-- Settles O1: the decoder computes each of the words. -/
theorem specWordsDecode : Obligations.SpecWordsDecode := by
  unfold Obligations.SpecWordsDecode
  decide

end Sys2Proof
end

section
/-! SUPPORT. The opcode map of 30_encoding.md R45 against the decoder: no row covers a word of R46's sets, and a decoded
word is covered by its instruction's row alone. From it the unknown words, and the cycle that meets one
(60_exceptions.md R95). -/

namespace Sys2Proof

open Laws

variable {w : Word}

/-! ### What the rows of the opcode map cover -/

theorem fieldNn_and (w m : Word) : fieldNn (w &&& m) = (fieldNn w &&& fieldNn m) := by
  ext k hk; simp [fieldNn]

/-- The mask of every row fixes what its family selects by: the high nibble and, further, the word, the low nibble or the
low byte. -/
theorem opcodeMap_masks : ∀ row ∈ opcodeMap, fieldOp row.mask = .allOnes 4 ∧
    (fieldOp row.bits = 0x0 → row.mask = .allOnes 16) ∧ (fieldOp row.bits = 0x8 → fieldN row.mask = .allOnes 4) ∧
    (fieldOp row.bits = 0xE ∨ fieldOp row.bits = 0xF → fieldNn row.mask = .allOnes 8) := by
  decide

theorem opcodeMap_bits_known : ∀ row ∈ opcodeMap, ¬ UnknownWord row.bits := by
  unfold UnknownWord
  decide

/-- Whether a word is unknown depends only on what its family selects by, and a row covers no word that differs from the
row there. -/
theorem covers_unknown {row : OpcodeRow} (hrow : row ∈ opcodeMap) (hcov : row.covers w = true) (h : UnknownWord w) :
    UnknownWord row.bits := by
  obtain ⟨hop, h0, h8, hEF⟩ := opcodeMap_masks row hrow
  have hbits : w &&& row.mask = row.bits := by simpa [OpcodeRow.covers] using hcov
  have hop : fieldOp row.bits = fieldOp w := by rw [← hbits, fieldOp_and, hop, BitVec.and_allOnes]
  rw [hop] at h0 h8 hEF
  have hn (hm : fieldN row.mask = .allOnes 4) : fieldN row.bits = fieldN w := by
    rw [← hbits, fieldN_and, hm, BitVec.and_allOnes]
  have hnn (hm : fieldNn row.mask = .allOnes 8) : fieldNn row.bits = fieldNn w := by
    rw [← hbits, fieldNn_and, hm, BitVec.and_allOnes]
  obtain ⟨h, hw⟩ | ⟨h, hw⟩ | ⟨h, hw⟩ | ⟨h, hw⟩ := h
  · have : row.bits = w := by rw [← hbits, h0 h, BitVec.and_allOnes]
    exact .inl (this ▸ ⟨h, hw⟩)
  · exact .inr (.inl ⟨hop.trans h, hn (h8 h) ▸ hw⟩)
  · exact .inr (.inr (.inl ⟨hop.trans h, hnn (hEF (.inl h)) ▸ hw⟩))
  · exact .inr (.inr (.inr ⟨hop.trans h, hnn (hEF (.inr h)) ▸ hw⟩))

theorem not_unknownWord_of_wellFormedWord (h : wellFormedWord w = true) : ¬ UnknownWord w := by
  obtain ⟨row, hrow, hcov⟩ := List.any_eq_true.mp h
  exact fun hw => opcodeMap_bits_known row hrow (covers_unknown hrow hcov hw)

/-- The word of every instruction is covered by one row, the instruction's own. -/
theorem matchesRow : ∀ i : Instr, MatchesRow.Statement i
  | .cls => MatchesRow.cls
  | .ret => MatchesRow.ret
  | .jpNnn nnn => MatchesRow.jpNnn nnn
  | .callNnn nnn => MatchesRow.callNnn nnn
  | .seVxNn x nn => MatchesRow.seVxNn x nn
  | .sneVxNn x nn => MatchesRow.sneVxNn x nn
  | .seVxVy x y n => MatchesRow.seVxVy x y n
  | .ldVxNn x nn => MatchesRow.ldVxNn x nn
  | .addVxNn x nn => MatchesRow.addVxNn x nn
  | .ldVxVy x y => MatchesRow.ldVxVy x y
  | .orVxVy x y => MatchesRow.orVxVy x y
  | .andVxVy x y => MatchesRow.andVxVy x y
  | .xorVxVy x y => MatchesRow.xorVxVy x y
  | .addVxVy x y => MatchesRow.addVxVy x y
  | .subVxVy x y => MatchesRow.subVxVy x y
  | .shrVx x y => MatchesRow.shrVx x y
  | .subnVxVy x y => MatchesRow.subnVxVy x y
  | .shlVx x y => MatchesRow.shlVx x y
  | .sneVxVy x y n => MatchesRow.sneVxVy x y n
  | .ldINnn nnn => MatchesRow.ldINnn nnn
  | .jpV0Nnn nnn => MatchesRow.jpV0Nnn nnn
  | .rndVxNn x nn => MatchesRow.rndVxNn x nn
  | .drwVxVyN x y n => MatchesRow.drwVxVyN x y n
  | .skpVx x => MatchesRow.skpVx x
  | .sknpVx x => MatchesRow.sknpVx x
  | .ldVxDt x => MatchesRow.ldVxDt x
  | .ldVxK x => MatchesRow.ldVxK x
  | .ldDtVx x => MatchesRow.ldDtVx x
  | .ldStVx x => MatchesRow.ldStVx x
  | .addIVx x => MatchesRow.addIVx x
  | .ldFVx x => MatchesRow.ldFVx x
  | .ldBVx x => MatchesRow.ldBVx x
  | .ldMemVx x => MatchesRow.ldMemVx x
  | .ldVxMem x => MatchesRow.ldVxMem x

theorem rows_of_decoded {i : Instr} (h : decode w = .ok i) :
    (opcodeMap.filter (·.covers w)).map (·.mnemonic) = [i.mnemonic] :=
  encodeOfDecodedWord w i h ▸ matchesRow i

theorem wellFormedWord_of_decoded {i : Instr} (h : decode w = .ok i) : wellFormedWord w = true := by
  have hrows := rows_of_decoded h
  by_contra hnone
  have hempty : opcodeMap.filter (·.covers w) = [] := by simpa [wellFormedWord] using hnone
  simp [hempty] at hrows

/-! ### The decoder, the map and the unknown sets agree -/

theorem decode_of_not_wellFormedWord (h : wellFormedWord w = false) : decode w = .error (.unknownOpcode w) := by
  cases hd : decode w with
  | ok i => simp [wellFormedWord_of_decoded hd] at h
  | error e => rw [(decode_error hd).1]

/-- The decoder reports exactly the words of R46, as themselves. -/
theorem decode_error_iff : decode w = .error (.unknownOpcode w) ↔ UnknownWord w :=
  ⟨fun h => (decode_error h).2, fun hw => decode_of_not_wellFormedWord
    (Bool.eq_false_iff.mpr fun hwf => not_unknownWord_of_wellFormedWord hwf hw)⟩

theorem decode_of_wellFormedWord (h : wellFormedWord w = true) : ∃ i, decode w = .ok i := by
  cases hd : decode w with
  | ok i => exact ⟨i, rfl⟩
  | error e => exact absurd (decode_error hd).2 (not_unknownWord_of_wellFormedWord h)

/-- Settles O4: a decoded word is its instruction's, which one row covers; a refused word is in R46's sets, which no row
covers. -/
theorem opcodeMapDisjointAndDecoded : Obligations.OpcodeMapDisjointAndDecoded :=
  ⟨rfl, fun _ => ⟨fun _ => rows_of_decoded, decode_of_not_wellFormedWord, decode_of_wellFormedWord⟩⟩

/-! ### The sets of R46 as numbers -/

theorem toNat_fieldOp (w : Word) : (fieldOp w).toNat = w.toNat / 0x1000 := by
  simp [fieldOp, Nat.shiftRight_eq_div_pow]
  omega

theorem toNat_fieldN (w : Word) : (fieldN w).toNat = w.toNat % 0x10 := by
  simp [fieldN]

theorem toNat_fieldNn (w : Word) : (fieldNn w).toNat = w.toNat % 0x100 := by
  simp [fieldNn]

/-- The low nibbles that family 0x8 leaves unused. -/
theorem nibble_unused_iff : ∀ n : Nibble, n ∉ [0x0, 0x1, 0x2, 0x3, 0x4, 0x5, 0x6, 0x7, 0xE] ↔
    n.toNat ∈ [0x8, 0x9, 0xA, 0xB, 0xC, 0xD, 0xF] := by
  decide

/-- Settles O5: the sets by fields are the sets by numbers, field by field. -/
theorem unknownWordsExactly : Obligations.UnknownWordsExactly := by
  intro w
  rw [decode_error_iff, UnknownWord, nibble_unused_iff, toNat_fieldN]
  have hop (o : Nibble) : fieldOp w = o ↔ w.toNat / 0x1000 = o.toNat := by
    rw [← BitVec.toNat_inj, toNat_fieldOp]
  have hnn (b : Byte) : fieldNn w = b ↔ w.toNat % 0x100 = b.toNat := by
    rw [← BitVec.toNat_inj, toNat_fieldNn]
  simp [hop, hnn]

end Sys2Proof

namespace Sys2Proof.Machine

variable {s : State}

theorem memRead_eq_some {a : Nat} {b : Byte} : s.memRead a = some b ↔ a < Config.memSize ∧ memGet s.mem a = b := by
  simp [State.memRead]

/-- Where both bytes at `PC` exist, they are the word fetched (40_cycle.md R50). -/
theorem fetch_of_memRead {hi lo : Byte} (hhi : s.memRead s.pc.toNat = some hi)
    (hlo : s.memRead (s.pc.toNat + 1) = some lo) : s.fetch = .ok (hi ++ lo) := by
  obtain ⟨-, hhi⟩ := memRead_eq_some.mp hhi
  obtain ⟨hin, hlo⟩ := memRead_eq_some.mp hlo
  have hin : s.pc.toNat + 1 < 0x1000 := hin
  rw [fetch_ok (by omega), hhi, hlo, wordOfBytes]

/-- Settles O9: the word fetched is not well formed, so the decoder refuses it and the cycle raises `UnknownOpcode`. -/
theorem unknownOpcodeAdvances : Obligations.UnknownOpcodeAdvances := by
  intro s hi lo hwait hhi hlo hword
  exact runCycle_unknown hwait (fetch_of_memRead hhi hlo) (decode_of_not_wellFormedWord hword)

end Sys2Proof.Machine
end

section
/-! SUPPORT. How an instruction ends (40_cycle.md R54), said once for all 34: the next `PC` is the one of the table, and the
result is `Ok`, `Awaiting` or a condition. -/

namespace Sys2Proof.Machine

variable {s u : State}

/-- `Ends s p o`: the outcome `o` is one of the ways an instruction fetched in `s` ends, and leaves `PC` at `p`. -/
inductive Ends (s : State) : Word → Host.Outcome State Fault Refusal → Prop where
  /-- With `Ok`, at `target`, whatever else the instruction wrote (`u`). -/
  | jump (target : Word) (u : State) : Ends s target (jumpTo target u)
  /-- With a condition, at the next word (60_exceptions.md R95). -/
  | raised (c : Result) : Ends s (s.pc + 2) (raise c s)
  /-- With `Awaiting`, at the instruction itself (45_keys_timers.md R92, D21). -/
  | await (x : Reg) : Ends s s.pc (execLdVxK x s)

theorem ends_advance (hpc : u.pc = s.pc) : Ends s (s.pc + 2) (advance u) :=
  hpc ▸ Ends.jump (u.pc + 2) u

theorem ends_skipIf {P : Prop} [Decidable P] {cond : Bool} (h : cond = true ↔ P) :
    Ends s (if P then s.pc + 4 else s.pc + 2) (skipIf cond s) := by
  rw [← if_congr h rfl rfl]
  exact .jump _ s

/-- An access through `I` goes to the next word whether its bounds check raises or not (20_memory.md R33). -/
theorem ends_boundsChecked (n : Nat) (hpc : u.pc = s.pc) :
    Ends s (s.pc + 2) (if s.blockOutOfBounds n then raise s.blockCondition s else advance u) := by
  split
  · exact .raised _
  · exact ends_advance hpc

/-- A key test reads the key of the register's low nibble (45_keys_timers.md R87, D11). -/
theorem keys_getElem?_lowNibble (s : State) (b : Byte) :
    s.keys[b.toNat % 16]? = some (s.keyPressed (keyNumber b)) := by
  have hlt : b.toNat % 16 < 16 := Nat.mod_lt _ (by decide)
  simp [State.keyPressed, keyNumber, hlt]

theorem stack_getElem?_top (live : 0 < s.sp.val) : s.stack[s.sp.val - 1]? = some (s.top live) :=
  Vector.getElem?_eq_getElem _

/-- Every instruction ends in one of the ways, at the `PC` of the table. -/
theorem exec_ends (i : Instr) (s : State) : Ends s (pcTable s i) (exec i s) := by
  cases i with
  | ret =>
    by_cases live : 0 < s.sp.val
    · rw [exec_ret_live live, pcTable, if_neg (by omega), stack_getElem?_top live]
      exact .jump _ s.drop
    · rw [exec_ret_empty (by omega), pcTable, if_pos (by omega)]
      exact .raised _
  | callNnn nnn =>
    by_cases room : s.sp.val < 16
    · rw [exec_call_room nnn room, pcTable, if_neg (by omega)]
      exact .jump _ _
    · rw [exec_call_full nnn (by omega), pcTable, if_pos (by omega)]
      exact .raised _
  | jpNnn _ | jpV0Nnn _ => exact .jump _ s
  | seVxNn _ _ | seVxVy _ _ _ => exact ends_skipIf beq_iff_eq
  | sneVxNn _ _ | sneVxVy _ _ _ => exact ends_skipIf bne_iff_ne
  | skpVx _ | sknpVx _ => exact ends_skipIf (by simp [keys_getElem?_lowNibble])
  | ldVxK x => exact .await x
  | drwVxVyN _ _ n => exact ends_boundsChecked n.toNat rfl
  | ldBVx _ => exact ends_boundsChecked 3 rfl
  | ldMemVx x => exact ends_boundsChecked (x.toNat + 1) rfl
  | ldVxMem x => exact ends_boundsChecked (x.toNat + 1) (State.setRegsFrom_pc ..)
  | _ => exact ends_advance rfl

/-- Settles O13: `PC` is where the instruction ends, and of the three ways only a raised condition returns one. -/
theorem pcAdvancesByTable : Obligations.PcAdvancesByTable := by
  intro i s t h
  have hends := exec_ends i s
  rw [h] at hends
  generalize pcTable s i = p at hends
  cases hends with
  | jump => exact ⟨rfl, by rintro _ ⟨⟩ ⟨⟩⟩
  | raised => exact ⟨rfl, fun _ _ _ => rfl⟩
  | await => exact ⟨rfl, by rintro _ ⟨⟩ ⟨⟩⟩

end Sys2Proof.Machine
end

section
/-! SUPPORT. The draw of a cycle (40_cycle.md R52, D25): an instruction that does not read it answers the same under any
other draw. -/

namespace Sys2Proof.Machine

/-- The state with the draw `r` on the input port. -/
def State.withDraw (s : State) (r : Byte) : State := { s with draw := r }

/-- `f` answers a next state, and under any other draw the same one but for the port. -/
def IgnoresDraw (f : State → Host.Outcome State Fault Refusal) : Prop :=
  ∀ s r, ∃ t, f s = .next t ∧ f (s.withDraw r) = .next (t.withDraw r)

theorem setRegsFrom_withDraw (s : State) (n : Nat) (bs : List Byte) (r : Byte) :
    (s.withDraw r).setRegsFrom n bs = (s.setRegsFrom n bs).withDraw r := by
  induction bs generalizing s n with
  | nil => rfl
  | cons b bs ih => exact ih (s.setReg (BitVec.ofNat 4 n) b) (n + 1)

/-- An access through `I` ignores the draw if the update `g` after its bounds check does. -/
theorem ignoresDraw_of_boundsChecked {f : State → Host.Outcome State Fault Refusal} {n : Nat} {g : State → State}
    (hf : ∀ s, f s = if s.blockOutOfBounds n then raise s.blockCondition s else advance (g s))
    (hany : ∀ s r, g (s.withDraw r) = (g s).withDraw r) : IgnoresDraw f := by
  intro s r
  have hbounds : (s.withDraw r).blockOutOfBounds n = s.blockOutOfBounds n := rfl
  rw [hf, hf, hbounds, hany]
  split
  · exact ⟨_, rfl, rfl⟩
  · exact ⟨_, rfl, rfl⟩

/-- Every instruction but CXNN ignores the draw. -/
theorem exec_ignoresDraw {i : Instr} (hrnd : ∀ x nn, i ≠ .rndVxNn x nn) : IgnoresDraw (exec i) := by
  cases i with
  | rndVxNn x nn => exact absurd rfl (hrnd x nn)
  | ret =>
    intro s r
    by_cases live : 0 < s.sp.val
    · exact ⟨_, exec_ret_live live, exec_ret_live (s := s.withDraw r) live⟩
    · have empty : s.sp.val = 0 := by omega
      exact ⟨_, exec_ret_empty empty, exec_ret_empty (s := s.withDraw r) empty⟩
  | callNnn nnn =>
    intro s r
    by_cases room : s.sp.val < 16
    · exact ⟨_, exec_call_room nnn room, exec_call_room nnn (s := s.withDraw r) room⟩
    · have full : s.sp.val = 16 := by omega
      exact ⟨_, exec_call_full nnn full, exec_call_full nnn (s := s.withDraw r) full⟩
  | drwVxVyN _ _ _ | ldBVx _ | ldMemVx _ => exact ignoresDraw_of_boundsChecked (fun _ => rfl) fun _ _ => rfl
  | ldVxMem x => exact ignoresDraw_of_boundsChecked (fun _ => rfl) fun s r => setRegsFrom_withDraw s 0 _ r
  | _ => exact fun _ _ => ⟨_, rfl, rfl⟩

theorem keyWaitPoll_ignoresDraw (x : Reg) : IgnoresDraw (keyWaitPoll x) := by
  intro s r
  cases hedge : s.edge with
  | some k => exact ⟨_, keyWaitPoll_edge hedge, keyWaitPoll_edge (s := s.withDraw r) hedge⟩
  | none => exact ⟨_, keyWaitPoll_noEdge hedge, keyWaitPoll_noEdge (s := s.withDraw r) hedge⟩

/-- Settles O14: no instruction but CXNN reads the draw, and with a wait pending a cycle is a poll. -/
theorem drawReadByRndOnly : Obligations.DrawReadByRndOnly := by
  refine ⟨fun i s r hrnd => exec_ignoresDraw hrnd s r, fun s r hwait => ?_⟩
  obtain ⟨x, hx⟩ := Option.ne_none_iff_exists'.mp hwait
  rw [runCycle_waiting hx, runCycle_waiting (s := { s with draw := r }) hx]
  exact keyWaitPoll_ignoresDraw x s r

end Sys2Proof.Machine
end

section
/-! SUPPORT. One step as a cycle (40_cycle.md R49), and its fetch (R50). -/

namespace Sys2Proof.Machine

/-! ### The instruction a step runs -/

theorem step_nil {s : State} (h : s.pending = []) :
    step s = commandCycle (Config.draw s.draws) { s with draws := s.draws + 1 } := by
  rw [step, takeCommand_nil h]
  rfl

/-- Settles O6: the step is a cycle, the ports it sets are not fetched from, and the word fetched decodes to `i`. -/
theorem stepRunsDecodedInstr : Obligations.StepRunsDecodedInstr := by
  intro s hi lo i hwait hhi hlo hdecode
  have hfetch : s.fetch = .ok (hi ++ lo) := fetch_of_memRead hhi hlo
  refine ⟨fun hp => ?_, fun r rest hp => ?_⟩
  · rw [step_nil hp]
    exact runCycle_decoded (s := { s with draw := Config.draw s.draws, draws := s.draws + 1 }) hwait hfetch hdecode
  · rw [step_cons hp]
    exact runCycle_decoded (s := { s with draw := r, pending := rest }) hwait hfetch hdecode

/-! ### The fetch -/

theorem fetch_last {s : State} (h : s.pc.toNat = 0x0FFF) : s.fetch = .error (.invalidMemoryAccess s.pc 0x1000) := by
  rw [fetch_outOfBounds (by omega), if_neg (by omega), h]

theorem fetch_past {s : State} (h : 0x1000 ≤ s.pc.toNat) :
    s.fetch = .error (.invalidMemoryAccess s.pc s.pc.toNat) := by
  rw [fetch_outOfBounds (by omega), if_pos h]

/-- Settles O8: both bytes exist up to 0xFFE, and past it the cycle raises the condition of the fetch. -/
theorem fetchReadsTwoBytesOrRaises : Obligations.FetchReadsTwoBytesOrRaises := by
  intro s hwait
  refine ⟨fun hin => ?_, fun hlast => ?_, fun hpast => ?_⟩
  · exact ⟨_, _, memRead_of_lt s (by omega), memRead_of_lt s (by omega), fetch_ok hin⟩
  · exact runCycle_fetch_error hwait (fetch_last hlast)
  · exact runCycle_fetch_error hwait (fetch_past hpast)

end Sys2Proof.Machine
end

section
/-! SUPPORT. The next state of CLS and of DRW, pixel by pixel (41_display.md R55, R56), and the second draw of one sprite. -/

namespace Sys2Proof.Machine

/-- Of a state that differs from `s` in the frame buffer, the registers, `PC` and the result only, the frame
`OnlyFrameBufferAndRegs` holds as soon as its registers do. -/
theorem onlyFrameBufferAndRegs_of_regsKept {xs : List Reg} {s : State} {v : Vector Byte 16}
    (hv : RegsKept xs s { s with v := v }) (fb : FrameBuffer) (pc : Word) (r : Option Result) :
    OnlyFrameBufferAndRegs xs s { s with v := v, fb := fb, pc := pc, result := r } :=
  ⟨hv, fun _ => rfl, rfl, ⟨rfl, rfl⟩, ⟨rfl, rfl⟩, fun _ => rfl, ⟨rfl, rfl⟩, ⟨rfl, rfl, rfl⟩⟩

/-- Settles O17: the next state has the cleared frame buffer, the next `PC` and `Ok`, and the rest of `s`. -/
theorem clsClearsFrameBuffer : Obligations.ClsClearsFrameBuffer :=
  ⟨decodeEncodeEveryInstr .cls, fun _ => ⟨_, rfl, pixel_clearFrame, rfl, rfl,
    onlyFrameBufferAndRegs_of_regsKept (fun _ _ => rfl) clearFrame _ _⟩⟩

/-! ### One draw -/

/-- Whether DRW Vx, Vy, n in `s` draws on the pixel: its sprite lies at `I`, its place is in `V[x]` and `V[y]`. -/
abbrev State.DrawsOn (s : State) (x y : Reg) (n : Nibble) (row : Fin 32) (col : Fin 64) : Prop :=
  SpriteCovers s s.i.toNat n.toNat (s.reg x) (s.reg y) row col

/-- The state after DRW, where its bounds check passes. -/
def State.afterDraw (s : State) (x y : Reg) (n : Nibble) : State :=
  { State.setReg { s with fb := (s.drawn x y n).1 } flagReg (collisionFlag (s.drawn x y n).2) with
    pc := s.pc + 2, result := some .ok }

theorem afterDraw_frame (s : State) (x y : Reg) (n : Nibble) : OnlyFrameBufferAndRegs [0xF] s (s.afterDraw x y n) :=
  onlyFrameBufferAndRegs_of_regsKept (regsKept_setReg _ List.mem_cons_self) _ _ _

/-- VF after a draw is the collision flag, also where `x` or `y` is F (D7). -/
theorem reg_afterDraw_flag (s : State) (x y : Reg) (n : Nibble) :
    (s.afterDraw x y n).reg 0xF = collisionFlag (s.drawn x y n).2 :=
  reg_setReg_same { s with fb := (s.drawn x y n).1 } flagReg _

section
variable {s : State} {x y : Reg} {n : Nibble} (hin : s.i.toNat + n.toNat ≤ 0x1000 ∨ n.toNat = 0)
include hin

theorem exec_drw_afterDraw : exec (.drwVxVyN x y n) s = .next (s.afterDraw x y n) :=
  exec_drw_in x y n (by omega)

theorem lit_afterDraw_of_drawsOn {row : Fin 32} {col : Fin 64} (h : s.DrawsOn x y n row col) :
    (s.afterDraw x y n).lit row col = !s.lit row col :=
  ((drawn_spec x y n s hin).1 row col).trans (by simp [State.lit, h])

theorem lit_afterDraw_of_not_drawsOn {row : Fin 32} {col : Fin 64} (h : ¬s.DrawsOn x y n row col) :
    (s.afterDraw x y n).lit row col = s.lit row col :=
  ((drawn_spec x y n s hin).1 row col).trans (by simp [State.lit, h])

theorem flag_afterDraw_of_lit (h : ∃ row col, s.DrawsOn x y n row col ∧ s.lit row col = true) :
    (s.afterDraw x y n).reg 0xF = 1 := by
  have hcollided : (s.drawn x y n).2 = true := (drawn_spec x y n s hin).2.mpr h
  rw [reg_afterDraw_flag, hcollided]
  rfl

theorem flag_afterDraw_of_unlit (h : ∀ row col, s.DrawsOn x y n row col → s.lit row col = false) :
    (s.afterDraw x y n).reg 0xF = 0 := by
  have hcollided : (s.drawn x y n).2 = false := by
    rw [Bool.eq_false_iff]
    intro hc
    obtain ⟨row, col, hdraws, hlit⟩ := (drawn_spec x y n s hin).2.mp hc
    exact absurd hlit (Bool.eq_false_iff.mp (h row col hdraws))
  rw [reg_afterDraw_flag, hcollided]
  rfl

end

/-- Settles O18: where the bounds check passes the next state is `afterDraw`, and where it fails nothing is drawn. -/
theorem drwXorsSprite : Obligations.DrwXorsSprite := by
  intro x y n s
  refine ⟨decodeEncodeEveryInstr (.drwVxVyN x y n), ?_⟩
  split
  · next hout =>
    rw [exec_drw_out x y n hout]
    exact raised_raise _ s
  · next hnot =>
    have hin : s.i.toNat + n.toNat ≤ 0x1000 ∨ n.toNat = 0 := by omega
    exact ⟨_, exec_drw_afterDraw hin, fun _ _ => lit_afterDraw_of_drawsOn hin,
      fun _ _ => lit_afterDraw_of_not_drawsOn hin, flag_afterDraw_of_lit hin, flag_afterDraw_of_unlit hin,
      rfl, rfl, afterDraw_frame s x y n⟩

/-! ### The second draw -/

/-- A draw moves no sprite whose place is in registers other than VF. -/
theorem drawsOn_of_frame {s t : State} {x y : Reg} (h : OnlyFrameBufferAndRegs [0xF] s t) (hx : x ≠ 0xF) (hy : y ≠ 0xF)
    (n : Nibble) (row : Fin 32) (col : Fin 64) : t.DrawsOn x y n row col ↔ s.DrawsOn x y n row col := by
  obtain ⟨hregs, hmem, hi, -⟩ := h
  have hi : t.i = s.i := hi
  rw [State.DrawsOn, hi, hregs x (List.mem_singleton.not.mpr hx), hregs y (List.mem_singleton.not.mpr hy)]
  simp only [SpriteCovers, hmem _]

/-- Settles O19: the second draw inverts the pixels the first one inverted, and a pixel the first one lit is one of them, so
the second collides there. -/
theorem drwTwiceRestores : Obligations.DrwTwiceRestores := by
  intro x y n s t u hx hy hbound ht hu
  have hin : s.i.toNat + n.toNat ≤ 0x1000 ∨ n.toNat = 0 := .inl hbound
  obtain rfl : s.afterDraw x y n = t := Host.Outcome.next.inj ((exec_drw_afterDraw hin).symm.trans ht)
  have hin' : (s.afterDraw x y n).i.toNat + n.toNat ≤ 0x1000 ∨ n.toNat = 0 := hin
  obtain rfl : (s.afterDraw x y n).afterDraw x y n = u :=
    Host.Outcome.next.inj ((exec_drw_afterDraw hin').symm.trans hu)
  have hsame := drawsOn_of_frame (afterDraw_frame s x y n) hx hy n
  refine ⟨fun row col => ?_, ?_⟩
  · by_cases hdraws : s.DrawsOn x y n row col
    · rw [lit_afterDraw_of_drawsOn hin' ((hsame row col).mpr hdraws), lit_afterDraw_of_drawsOn hin hdraws, Bool.not_not]
    · rw [lit_afterDraw_of_not_drawsOn hin' (mt (hsame row col).mp hdraws), lit_afterDraw_of_not_drawsOn hin hdraws]
  · rintro ⟨row, col, hunlit, hlit⟩
    have hdraws : s.DrawsOn x y n row col := by
      by_contra hnot
      rw [lit_afterDraw_of_not_drawsOn hin hnot, hunlit] at hlit
      exact Bool.false_ne_true hlit
    exact flag_afterDraw_of_lit hin' ⟨row, col, (hsame row col).mpr hdraws, hlit⟩

end Sys2Proof.Machine
end

section
/-! SUPPORT. Jumps, skips and subroutine calls (42_control_flow.md): the frame of a jump, a skip by the condition it tests, and
what CALL and RET do to the stack. -/

namespace Sys2Proof.Machine

/-! ### Frames -/

theorem onlyPc_of_pc_result (s : State) (pc : Word) (r : Option Result) :
    OnlyPc s { s with pc := pc, result := r } :=
  onlyRegs_of_fields (fun _ _ => rfl) rfl rfl rfl rfl rfl rfl rfl rfl rfl rfl rfl rfl rfl

theorem onlyStack_of_stack_sp (s : State) (k : Vector Word 16) (sp : Fin 17) (pc : Word) (r : Option Result) :
    OnlyStack s { s with stack := k, sp := sp, pc := pc, result := r } :=
  ⟨fun _ _ => rfl, fun _ => rfl, rfl, ⟨rfl, rfl⟩, fun _ _ => rfl, fun _ => rfl, ⟨rfl, rfl⟩, ⟨rfl, rfl, rfl⟩⟩

/-! ### Jumps -/

/-- Settles O21: the next state is `s` with `PC` and the result set, which for a jump to itself keeps `PC` too. -/
theorem jpSetsPc : Obligations.JpSetsPc := by
  intro nnn s
  refine ⟨decodeEncodeEveryInstr (.jpNnn nnn), _, jumpTo_eq _ s, rfl, rfl, onlyPc_of_pc_result s _ _, fun hself => ?_⟩
  rw [zext16, hself]

/-- The target of `BNNN` is at most 0x10FE, so its 16-bit sum does not wrap (42_control_flow.md R65). -/
theorem toNat_offsetTarget (nnn : Addr12) (v0 : Byte) : (offsetTarget nnn v0).toNat = nnn.toNat + v0.toNat := by
  have hnnn := nnn.isLt
  have hv0 := v0.isLt
  simp only [offsetTarget, zext16, BitVec.toNat_add, BitVec.toNat_setWidth]
  omega

/-- Settles O26: a jump to `offsetTarget`, which is the exact sum. -/
theorem jpV0AddsOffset : Obligations.JpV0AddsOffset := fun nnn s =>
  ⟨decodeEncodeEveryInstr (.jpV0Nnn nnn), _, jumpTo_eq _ s, toNat_offsetTarget nnn (s.reg 0), rfl,
    onlyPc_of_pc_result s _ _⟩

/-! ### Skips -/

/-- A skip on a test of `P` goes past the next instruction if `P`, and writes nothing but `PC`. -/
theorem skipIf_skips (s : State) {P : Prop} [Decidable P] {cond : Bool} (h : cond = true ↔ P) :
    ∃ t, skipIf cond s = .next t ∧ t.pc = (if P then s.pc + 4 else s.pc + 2) ∧ t.result = some .ok ∧ OnlyPc s t :=
  ⟨_, skipIf_eq cond s, if_congr h rfl rfl, rfl, onlyPc_of_pc_result s _ _⟩

/-- A skip on the failure of `P` goes to the next instruction if `P`. -/
theorem skipIf_not_skips (s : State) {P : Prop} [Decidable P] {cond : Bool} (h : cond = true ↔ ¬P) :
    ∃ t, skipIf cond s = .next t ∧ t.pc = (if P then s.pc + 2 else s.pc + 4) ∧ t.result = some .ok ∧ OnlyPc s t := by
  rw [← ite_not]
  exact skipIf_skips s h

/-- Settles O24: SE skips on equality with the immediate, SNE on its failure. -/
theorem skipsOnImmediate : Obligations.SkipsOnImmediate := fun x nn s =>
  ⟨decodeEncodeEveryInstr (.seVxNn x nn), decodeEncodeEveryInstr (.sneVxNn x nn),
    skipIf_skips s beq_iff_eq, skipIf_not_skips s bne_iff_ne⟩

/-- Settles O25: SE skips on equality of the registers, SNE on its failure; neither reads the low nibble. -/
theorem skipsOnRegister : Obligations.SkipsOnRegister := fun x y n s =>
  ⟨decodeEncodeEveryInstr (.seVxVy x y n), decodeEncodeEveryInstr (.sneVxVy x y n),
    skipIf_skips s beq_iff_eq, skipIf_not_skips s bne_iff_ne⟩

/-! ### The stack -/

theorem push_getElem?_sp (s : State) (w : Word) (room : s.sp.val < 16) :
    (s.push w room).stack[s.sp.val]? = some w := by
  simp

theorem push_getElem?_ne (s : State) (w : Word) (room : s.sp.val < 16) {j : Nat} (h : j ≠ s.sp.val) :
    (s.push w room).stack[j]? = s.stack[j]? :=
  Vector.getElem?_set_ne room h.symm

/-- A push makes its value the top. -/
@[simp] theorem top_push (s : State) (w : Word) (room : s.sp.val < 16) (live : 0 < (s.push w room).sp.val) :
    (s.push w room).top live = w := by
  simp [State.top]

/-- A push and a pop leave the stack pointer as it was. -/
@[simp] theorem drop_push_sp (s : State) (w : Word) (room : s.sp.val < 16) : (s.push w room).drop.sp = s.sp := rfl

/-- Settles O20: with a live entry RET jumps to the top and drops it; with none it raises the condition. -/
theorem retPopsPc : Obligations.RetPopsPc := by
  refine ⟨decodeEncodeEveryInstr .ret, fun s => ⟨fun live => ?_, fun empty => ?_⟩⟩
  · exact ⟨_, exec_ret_live live, (stack_getElem?_top live).symm, rfl, rfl, rfl, onlyStack_of_stack_sp s _ _ _ _⟩
  · rw [exec_ret_empty empty]
    exact raised_raise _ s

/-- Settles O22: with room CALL pushes the next address and jumps; with none it raises the condition. -/
theorem callPushesAndJumps : Obligations.CallPushesAndJumps := by
  intro nnn s
  refine ⟨decodeEncodeEveryInstr (.callNnn nnn), fun room => ?_, fun full => ?_⟩
  · exact ⟨_, exec_call_room nnn room, push_getElem?_sp s _ room, fun _ => push_getElem?_ne s _ room, rfl, rfl, rfl,
      onlyStack_of_stack_sp s _ _ _ _⟩
  · rw [exec_call_full nnn full]
    exact raised_raise _ s

/-- Settles O23: CALL leaves its return address on top of a stack that is not empty, so RET jumps there and drops it; the
entries below are not written. -/
theorem callThenRetReturns : Obligations.CallThenRetReturns := by
  intro nnn s t p room hcall
  rw [exec_call_room nnn room, jumpTo_eq] at hcall
  obtain rfl := Host.Outcome.next.inj hcall
  have live : 0 < (s.push (s.pc + 2) room).sp.val := Nat.succ_pos _
  exact ⟨_, exec_ret_live live, top_push s _ room live, drop_push_sp s _ room,
    fun _ hj => push_getElem?_ne s _ room (Nat.ne_of_lt hj)⟩

end Sys2Proof.Machine
end

section
/-! SUPPORT. The register and arithmetic instructions (43_alu.md): the two ways one of them ends, each flag and each wrapping
result as a number, and from them the rule of each instruction. -/

namespace Sys2Proof.Machine

/-! ### The two ways an ALU instruction ends -/

/-- Of a state that differs from `s` in the registers, `PC` and the result only, the frame `OnlyRegs` holds as soon as its
registers do. -/
theorem onlyRegs_of_regsKept {xs : List Reg} {s : State} {v : Vector Byte 16} (hv : RegsKept xs s { s with v := v })
    (pc : Word) (r : Option Result) : OnlyRegs xs s { s with v := v, pc := pc, result := r } :=
  onlyRegs_of_fields hv rfl rfl rfl rfl rfl rfl rfl rfl rfl rfl rfl rfl rfl

/-- An instruction without a flag writes its destination and nothing else, VF no more than another register (D6). -/
theorem advance_setReg_writes (x : Reg) (b : Byte) (s : State) :
    ∃ t, advance (s.setReg x b) = .next t ∧ t.reg x = b ∧ t.pc = s.pc + 2 ∧ t.result = some .ok ∧ OnlyRegs [x] s t :=
  ⟨_, advance_eq _, reg_setReg_same s x b, rfl, rfl, onlyRegs_of_regsKept (regsKept_setReg b List.mem_cons_self) _ _⟩

/-- A flag producer writes its destination, and VF unless the destination is VF, where the result stays (43_alu.md R67, D7). -/
theorem finishFlagged_writes (x : Reg) (flag b : Byte) (s : State) :
    ∃ t, finishFlagged x flag b s = .next t ∧ t.reg x = b ∧ (x ≠ 0xF → t.reg 0xF = flag) ∧
      t.pc = s.pc + 2 ∧ t.result = some .ok ∧ OnlyRegs [x, 0xF] s t := by
  have hflag (hx : x ≠ 0xF) : ((s.setReg flagReg flag).setReg x b).reg 0xF = flag := by
    rw [reg_finishFlagged, if_neg hx.symm]
    exact if_pos rfl
  have hkept : RegsKept [x, 0xF] s ((s.setReg flagReg flag).setReg x b) :=
    (regsKept_setReg flag (List.mem_cons_of_mem x List.mem_cons_self)).trans (regsKept_setReg b List.mem_cons_self)
  exact ⟨_, finishFlagged_eq x flag b s, reg_setReg_same _ x b, hflag, rfl, rfl, onlyRegs_of_regsKept hkept _ _⟩

/-! ### The flags as numbers -/

/-- The 9-bit sum does not wrap, so the carry is a matter of the exact sum (43_alu.md R74). -/
theorem carryFlag_eq (vx vy : Byte) : carryFlag vx vy = if 255 < vx.toNat + vy.toNat then 1 else 0 := by
  have hsum : (vx.zeroExtend 9 + vy.zeroExtend 9).toNat = vx.toNat + vy.toNat := by
    have hx := vx.isLt
    have hy := vy.isLt
    simp only [BitVec.toNat_add, BitVec.toNat_setWidth]
    omega
  simp only [carryFlag, flagByte, hsum, decide_eq_true_eq]

theorem noBorrowFlag_eq (p q : Byte) : noBorrowFlag p q = if q.toNat ≤ p.toNat then 1 else 0 := by
  simp only [noBorrowFlag, flagByte, BitVec.le_def, decide_eq_true_eq]

theorem toNat_flagByte (f : Bool) : (flagByte f).toNat = f.toNat := by
  cases f <;> rfl

theorem toNat_shiftOutLow (vx : Byte) : (shiftOutLow vx).toNat = vx.toNat % 2 := by
  rw [shiftOutLow, toNat_flagByte, BitVec.getLsbD, Nat.toNat_testBit, Nat.pow_zero, Nat.div_one]

theorem toNat_shiftOutHigh (vx : Byte) : (shiftOutHigh vx).toNat = vx.toNat / 128 := by
  have hlt := vx.isLt
  rw [shiftOutHigh, toNat_flagByte, BitVec.getLsbD, Nat.toNat_testBit]
  omega

/-! ### The results as numbers (43_alu.md R66) -/

theorem toNat_byte_sub (p q : Byte) : (p - q).toNat = (p.toNat + 256 - q.toNat) % 256 := by
  have hq := q.isLt
  rw [BitVec.toNat_sub]
  omega

theorem toNat_byte_shiftRight_one (b : Byte) : (b >>> 1).toNat = b.toNat / 2 := by
  rw [BitVec.toNat_ushiftRight, Nat.shiftRight_one]

theorem toNat_byte_shiftLeft_one (b : Byte) : (b <<< 1).toNat = b.toNat * 2 % 256 := by
  rw [BitVec.toNat_shiftLeft, Nat.shiftLeft_eq, Nat.pow_one]

/-! ### The instructions without a flag -/

/-- Settles O27: the destination is written with the immediate. -/
theorem ldVxNnWritesImmediate : Obligations.LdVxNnWritesImmediate := fun x nn s =>
  ⟨decodeEncodeEveryInstr (.ldVxNn x nn), advance_setReg_writes x nn s⟩

/-- Settles O28: the destination is written with the 8-bit sum, which is the sum modulo 256. -/
theorem addVxNnWrapsWithoutFlag : Obligations.AddVxNnWrapsWithoutFlag := by
  intro x nn s
  obtain ⟨t, hexec, hresult, hends⟩ := advance_setReg_writes x (s.reg x + nn) s
  exact ⟨decodeEncodeEveryInstr (.addVxNn x nn), t, hexec, hresult ▸ BitVec.toNat_add _ _, hends⟩

/-- Settles O29: each of the four writes its destination with its own result, and nothing else. -/
theorem logicGroupLeavesVf : Obligations.LogicGroupLeavesVf := fun x y s =>
  ⟨decodeEncodeEveryInstr (.ldVxVy x y), decodeEncodeEveryInstr (.orVxVy x y),
    decodeEncodeEveryInstr (.andVxVy x y), decodeEncodeEveryInstr (.xorVxVy x y),
    advance_setReg_writes x (s.reg y) s, advance_setReg_writes x (s.reg x ||| s.reg y) s,
    advance_setReg_writes x (s.reg x &&& s.reg y) s, advance_setReg_writes x (s.reg x ^^^ s.reg y) s⟩

/-- Settles O35: the destination is written with the masked draw; nothing is asked of the draw. -/
theorem rndVxNnMasksDraw : Obligations.RndVxNnMasksDraw := fun x nn s =>
  ⟨decodeEncodeEveryInstr (.rndVxNn x nn), advance_setReg_writes x (s.draw &&& nn) s⟩

/-! ### The flag producers -/

/-- Settles O30: the 8-bit sum, and VF the carry of the exact sum. -/
theorem addVxVySetsCarry : Obligations.AddVxVySetsCarry := by
  intro x y s
  obtain ⟨t, hexec, hresult, hflag, hends⟩ :=
    finishFlagged_writes x (carryFlag (s.reg x) (s.reg y)) (s.reg x + s.reg y) s
  exact ⟨decodeEncodeEveryInstr (.addVxVy x y), t, hexec, hresult ▸ BitVec.toNat_add _ _,
    fun hx => (hflag hx).trans (carryFlag_eq _ _), hends⟩

/-- Settles O31: the 8-bit difference `V[x] - V[y]`, and VF whether it needs no borrow. -/
theorem subVxVySetsNoBorrow : Obligations.SubVxVySetsNoBorrow := by
  intro x y s
  obtain ⟨t, hexec, hresult, hflag, hends⟩ :=
    finishFlagged_writes x (noBorrowFlag (s.reg x) (s.reg y)) (s.reg x - s.reg y) s
  exact ⟨decodeEncodeEveryInstr (.subVxVy x y), t, hexec, hresult ▸ toNat_byte_sub _ _,
    fun hx => (hflag hx).trans (noBorrowFlag_eq _ _), hends⟩

/-- Settles O32: the right shift is a halving, and VF its remainder. -/
theorem shrVxShiftsOutBitZero : Obligations.ShrVxShiftsOutBitZero := by
  intro x y s
  obtain ⟨t, hexec, hresult, hflag, hends⟩ := finishFlagged_writes x (shiftOutLow (s.reg x)) (s.reg x >>> 1) s
  exact ⟨decodeEncodeEveryInstr (.shrVx x y), t, hexec, hresult ▸ toNat_byte_shiftRight_one _,
    fun hx => hflag hx ▸ toNat_shiftOutLow _, hends⟩

/-- Settles O33: the 8-bit difference `V[y] - V[x]`, and VF whether it needs no borrow. -/
theorem subnVxVySetsNoBorrow : Obligations.SubnVxVySetsNoBorrow := by
  intro x y s
  obtain ⟨t, hexec, hresult, hflag, hends⟩ :=
    finishFlagged_writes x (noBorrowFlag (s.reg y) (s.reg x)) (s.reg y - s.reg x) s
  exact ⟨decodeEncodeEveryInstr (.subnVxVy x y), t, hexec, hresult ▸ toNat_byte_sub _ _,
    fun hx => (hflag hx).trans (noBorrowFlag_eq _ _), hends⟩

/-- Settles O34: the left shift is a doubling modulo 256, and VF what it carries out of the byte. -/
theorem shlVxShiftsOutBitSeven : Obligations.ShlVxShiftsOutBitSeven := by
  intro x y s
  obtain ⟨t, hexec, hresult, hflag, hends⟩ := finishFlagged_writes x (shiftOutHigh (s.reg x)) (s.reg x <<< 1) s
  exact ⟨decodeEncodeEveryInstr (.shlVx x y), t, hexec, hresult ▸ toNat_byte_shiftLeft_one _,
    fun hx => hflag hx ▸ toNat_shiftOutHigh _, hends⟩

end Sys2Proof.Machine
end

section
/-! SUPPORT. The index-register and memory instructions (44_index_memory.md): each new value of `I` as a number, what one
access through `I` stores or loads and what it leaves alone, and from them the rule of each instruction. -/

namespace Sys2Proof.Machine

variable {s : State}

/-! ### Setting the index register -/

/-- An instruction that sets `I` writes nothing else, VF no more than another register (D9). -/
theorem advance_index_writes {w : Word} {n : Nat} (hw : w.toNat = n) (s : State) :
    ∃ t, advance { s with i := w } = .next t ∧ t.i.toNat = n ∧ t.pc = s.pc + 2 ∧ t.result = some .ok ∧ OnlyIndex s t :=
  ⟨_, advance_eq _, hw, rfl, rfl,
    fun _ _ => rfl, fun _ => rfl, ⟨rfl, rfl⟩, ⟨rfl, rfl⟩, fun _ _ => rfl, fun _ => rfl, ⟨rfl, rfl⟩, ⟨rfl, rfl, rfl⟩⟩

theorem toNat_zext16 (nnn : Addr12) : (zext16 nnn).toNat = nnn.toNat :=
  BitVec.toNat_setWidth_of_le (by decide)

/-- The mask to 12 bits is the remainder modulo 0x1000, of the 16-bit sum and so of the exact one (R82). -/
theorem toNat_indexSum (w : Word) (b : Byte) : (indexSum w b).toNat = (w.toNat + b.toNat) % 0x1000 := by
  have hmask : (0x0FFF : Word).toNat = 2 ^ 12 - 1 := rfl
  have hb : (b.zeroExtend 16).toNat = b.toNat := BitVec.toNat_setWidth_of_le (by decide)
  rw [indexSum, BitVec.toNat_and, hmask, Nat.and_two_pow_sub_one_eq_mod, BitVec.toNat_add, hb]
  exact Nat.mod_mod_of_dvd _ (by decide)

/-- The glyph of the low nibble, 5 bytes to a glyph (R83, D10). -/
theorem toNat_glyphAddress (b : Byte) : (glyphAddress b).toNat = 0x050 + 5 * (b.toNat % 16) := by
  have hmask : (0x0F : Byte).toNat = 2 ^ 4 - 1 := rfl
  have hnibble : (b &&& 0x0F).toNat = b.toNat % 16 := by
    rw [BitVec.toNat_and, hmask, Nat.and_two_pow_sub_one_eq_mod]
  rw [glyphAddress, fontBase, BitVec.toNat_ofNat, hnibble]
  omega

/-- Settles O36: `I` is set to the zero-extended immediate. -/
theorem ldINnnSetsIndex : Obligations.LdINnnSetsIndex := fun nnn s =>
  ⟨decodeEncodeEveryInstr (.ldINnn nnn), advance_index_writes (toNat_zext16 nnn) s⟩

/-- Settles O37: `I` is set to the masked sum. -/
theorem addIVxMasksTo12Bits : Obligations.AddIVxMasksTo12Bits := fun x s =>
  ⟨decodeEncodeEveryInstr (.addIVx x), advance_index_writes (toNat_indexSum s.i (s.reg x)) s⟩

/-- Settles O38: `I` is set to the address of the glyph. -/
theorem ldFVxPointsAtGlyph : Obligations.LdFVxPointsAtGlyph := fun x s =>
  ⟨decodeEncodeEveryInstr (.ldFVx x), advance_index_writes (toNat_glyphAddress (s.reg x)) s⟩

/-! ### Storing through the index register -/

/-- A block of stores that ends within the array leaves its bytes at their addresses. -/
theorem memRead_writeBlock (hm : s.mem.wf = true) {base : Nat} {bs : List Byte} (hin : base + bs.length ≤ 0x1000)
    {k : Nat} (hk : k < bs.length) : (s.writeBlock base bs).memRead (base + k) = bs[k]? := by
  have hmem : base + k < Config.memSize := Nat.lt_of_lt_of_le (Nat.add_lt_add_left hk base) hin
  have hblock : base ≤ base + k ∧ base + k < base + bs.length := by omega
  rw [memRead_of_lt _ hmem, State.writeBlock_mem, memGet_memPutBlock bs hm base _ hmem, dif_pos hblock,
    List.getElem?_eq_getElem hk]
  simp only [Nat.add_sub_cancel_left]

theorem memoryKeptOutside_writeBlock (hm : s.mem.wf = true) (base : Nat) (bs : List Byte) :
    MemoryKeptOutside base bs.length s (s.writeBlock base bs) := by
  intro a hout
  rw [State.memRead, State.memRead]
  split
  · next ha => rw [State.writeBlock_mem, memGet_memPutBlock bs hm base a ha, dif_neg hout]
  · rfl

theorem onlyStores_writeBlock (hm : s.mem.wf = true) (base : Nat) (bs : List Byte) (pc : Word) (r : Option Result) :
    OnlyStores base bs.length s { s.writeBlock base bs with pc := pc, result := r } :=
  ⟨fun _ _ => rfl, memoryKeptOutside_writeBlock hm base bs, rfl, ⟨rfl, rfl⟩, ⟨rfl, rfl⟩, fun _ _ => rfl, fun _ => rfl,
    ⟨rfl, rfl⟩, ⟨rfl, rfl, rfl⟩⟩

theorem bcdDigits_length (b : Byte) : (bcdDigits b).length = 3 := rfl

/-- The digits as numbers, hundreds first (R84, D12). -/
theorem toNat_bcdDigits (b : Byte) :
    (bcdDigits b).map (·.toNat) = [b.toNat / 100, b.toNat / 10 % 10, b.toNat % 10] := by
  simp [bcdDigits]

/-- Settles O39: the digits are the bytes of one block of three at `I`. -/
theorem ldBVxStoresDigits : Obligations.LdBVxStoresDigits := by
  intro x s hm
  refine ⟨decodeEncodeEveryInstr (.ldBVx x), ?_⟩
  split
  · next hout =>
    rw [exec_ldBVx_out x hout]
    exact raised_raise _ s
  · next hnot =>
    have hin : s.i.toNat + (bcdDigits (s.reg x)).length ≤ 0x1000 := by
      rw [bcdDigits_length]
      omega
    have hdigit {k : Nat} (hk : k < 3) :
        ((s.writeBlock s.i.toNat (bcdDigits (s.reg x))).memRead (s.i.toNat + k)).map (·.toNat) =
          [(s.reg x).toNat / 100, (s.reg x).toNat / 10 % 10, (s.reg x).toNat % 10][k]? := by
      rw [memRead_writeBlock hm hin hk, ← List.getElem?_map, toNat_bcdDigits]
    exact ⟨_, exec_ldBVx_in x (Nat.not_le.mp hnot), hdigit (k := 0) (by decide), hdigit (k := 1) (by decide),
      hdigit (k := 2) (by decide), rfl, rfl, onlyStores_writeBlock hm _ _ _ _⟩

/-- Settles O40: the registers are the bytes of one block at `I`, `V[z]` the one at `I + z`. -/
theorem ldMemVxDumpsRegisters : Obligations.LdMemVxDumpsRegisters := by
  intro x s hm
  refine ⟨decodeEncodeEveryInstr (.ldMemVx x), ?_⟩
  split
  · next hout =>
    rw [exec_ldMemVx_out x hout]
    exact raised_raise _ s
  · next hnot =>
    have hin : s.i.toNat + x.toNat < 0x1000 := Nat.not_le.mp hnot
    refine ⟨_, exec_ldMemVx_in x hin, fun z hz => ?_, rfl, rfl, ?_⟩
    · have hmem : s.i.toNat + z.toNat < 0x1000 := Nat.lt_of_le_of_lt (Nat.add_le_add_left hz _) hin
      exact (memRead_of_lt _ hmem).trans (congrArg some (memGet_writeBlock_regsUpTo hm hin hz))
    · rw [← regsUpTo_length s x]
      exact onlyStores_writeBlock hm _ _ _ _

/-! ### Loading through the index register -/

/-- After a register load from address `a` up (R86), `V[z]` is the byte at `a + z`. -/
theorem reg_setRegsFrom_readBlock (s : State) (a : Nat) {x z : Reg} (hz : z ≤ x) :
    (s.setRegsFrom 0 (s.readBlock a (x.toNat + 1))).reg z = memGet s.mem (a + z.toNat) := by
  have hz : z.toNat ≤ x.toNat := hz
  have hx := x.isLt
  have hlen := readBlock_length s a (x.toNat + 1)
  rw [reg_setRegsFrom _ s 0 (by omega), dif_pos (by omega), readBlock_getElem, Nat.sub_zero]

/-- A register load writes `V[0..x]` only: the frame of FX65. -/
theorem onlyRegs_setRegsFrom (x : Reg) {bs : List Byte} (hbs : bs.length = x.toNat + 1) (pc : Word) (r : Option Result) :
    OnlyRegs (destinations (.ldVxMem x)) s { s.setRegsFrom 0 bs with pc := pc, result := r } := by
  have hkept : RegsKept (destinations (.ldVxMem x)) s (s.setRegsFrom 0 bs) := (Effect.loadRegs x bs hbs).regsKept
  rw [State.setRegsFrom_eq_with_v] at hkept ⊢
  exact onlyRegs_of_regsKept hkept pc r

/-- Settles O41: each register up to `x` gets the byte at its place in the block at `I`, and the frame is that of the load. -/
theorem ldVxMemLoadsRegisters : Obligations.LdVxMemLoadsRegisters := by
  intro x s
  refine ⟨decodeEncodeEveryInstr (.ldVxMem x), ?_⟩
  split
  · next hout =>
    rw [exec_ldVxMem_out x hout]
    exact raised_raise _ s
  · next hnot =>
    have hin : s.i.toNat + x.toNat < 0x1000 := Nat.not_le.mp hnot
    refine ⟨_, exec_ldVxMem_in x hin, fun z hz => ?_, congrArg (· + 2) (State.setRegsFrom_pc ..), rfl,
      onlyRegs_setRegsFrom x (readBlock_length ..) _ _⟩
    have hmem : s.i.toNat + z.toNat < 0x1000 := Nat.lt_of_le_of_lt (Nat.add_le_add_left hz _) hin
    rw [memRead_of_lt s hmem]
    exact congrArg some (reg_setRegsFrom_readBlock s _ hz)

end Sys2Proof.Machine
end

section
/-! SUPPORT. The key and timer instructions (45_keys_timers.md): the frame of a timer write and of a key-wait, what a poll does
with and without an edge, and that a wait nobody presses a key for goes on. -/

namespace Sys2Proof.Machine

variable {s : State}

/-! ### A wait without a key press -/

/-- The state after one cycle of a wait with no edge latched and no command pending: the free draw is taken. -/
def State.polled (s : State) : State :=
  { s with draw := Config.draw s.draws, draws := s.draws + 1, result := some .awaiting }

theorem runCycle_waiting_noEdge {x : Reg} (hw : s.wait = some x) (he : s.edge = none) :
    runCycle s = .next { s with result := some .awaiting } :=
  (runCycle_waiting hw).trans (keyWaitPoll_noEdge he)

theorem step_waiting_noEdge {x : Reg} (hp : s.pending = []) (hw : s.wait = some x) (he : s.edge = none) :
    step s = .next s.polled :=
  (step_nil hp).trans
    (runCycle_waiting_noEdge (s := { s with draw := Config.draw s.draws, draws := s.draws + 1 }) hw he)

theorem run_succ_of_step {M : Host.Core} {s t : M.State} (h : M.step s = .next t) (n : Nat) :
    M.run (n + 1) s = M.run n t := by
  rw [Host.Core.run, h]

/-- Settles O50, by induction on the number of steps: a poll without an edge keeps the three fields the wait depends on. -/
theorem waitHoldsWithoutPress : Obligations.WaitHoldsWithoutPress := by
  intro n
  induction n with
  | zero => exact fun s _ _ _ _ => ⟨s, rfl, rfl⟩
  | succ n ih =>
    intro s x hp hw he
    obtain ⟨t, hrun, ht⟩ := ih s.polled x hp hw he
    have hfirst : core.run (n + 1) s = core.run n s.polled := run_succ_of_step (step_waiting_noEdge hp hw he) n
    have hdraws : s.polled.draws + n = s.draws + (n + 1) := Nat.add_right_comm s.draws 1 n
    exact ⟨t, hfirst.trans hrun, hdraws ▸ ht⟩

/-! ### Key tests -/

/-- Settles O43: the key tested is the one of the register's low nibble; SKP skips if it is pressed, SKNP if not. -/
theorem keyTestsSkip : Obligations.KeyTestsSkip := by
  intro x s
  have hkey : s.keyPressed (keyNumber (s.reg x)) = true ↔ s.keys[(s.reg x).toNat % 16]? = some true := by
    rw [keys_getElem?_lowNibble, Option.some_inj]
  have hnot : (!s.keyPressed (keyNumber (s.reg x))) = true ↔ ¬s.keys[(s.reg x).toNat % 16]? = some true := by
    rw [← hkey, Bool.not_eq_true', Bool.not_eq_true]
  obtain ⟨t, hskp, hpc, hok, hframe⟩ := skipIf_skips s hkey
  obtain ⟨t', hsknp, hpc', hok', hframe'⟩ := skipIf_not_skips s hnot
  exact ⟨decodeEncodeEveryInstr (.skpVx x), decodeEncodeEveryInstr (.sknpVx x),
    ⟨t, hskp, hok, hframe, hpc⟩, ⟨t', hsknp, hok', hframe', hpc'⟩⟩

/-! ### Timers -/

theorem onlyTimers_of_timers (s : State) (dt st : Byte) (pc : Word) (r : Option Result) :
    OnlyTimers s { s with dt := dt, st := st, pc := pc, result := r } :=
  ⟨fun _ _ => rfl, fun _ => rfl, rfl, ⟨rfl, rfl⟩, fun _ _ => rfl, fun _ => rfl, ⟨rfl, rfl⟩, ⟨rfl, rfl, rfl⟩⟩

/-- Settles O44: the destination is written with the delay timer. -/
theorem ldVxDtReadsDelayTimer : Obligations.LdVxDtReadsDelayTimer := fun x s =>
  ⟨decodeEncodeEveryInstr (.ldVxDt x), advance_setReg_writes x s.dt s⟩

/-- Settles O45: the delay timer is set, the sound timer not written. -/
theorem ldDtVxSetsDelayTimer : Obligations.LdDtVxSetsDelayTimer := fun x s =>
  ⟨decodeEncodeEveryInstr (.ldDtVx x), _, advance_eq _, rfl, rfl, rfl, rfl, onlyTimers_of_timers s _ _ _ _⟩

/-- Settles O46: the sound timer is set, and `SOUND_ACTIVE` is the test that it is not zero. -/
theorem ldStVxSetsSoundTimer : Obligations.LdStVxSetsSoundTimer := fun x s =>
  ⟨decodeEncodeEveryInstr (.ldStVx x), _, advance_eq _, rfl, rfl, bne_iff_ne, rfl, rfl, onlyTimers_of_timers s _ _ _ _⟩

/-! ### The key-wait -/

/-- Of a state that differs from `s` in the key-wait, the registers, `PC` and the result only, the frame `OnlyWaitAndRegs`
holds as soon as its registers do. -/
theorem onlyWaitAndRegs_of_regsKept {xs : List Reg} {v : Vector Byte 16} (hv : RegsKept xs s { s with v := v })
    (wait : Option Reg) (edge : Option Key) (pc : Word) (r : Option Result) :
    OnlyWaitAndRegs xs s { s with v := v, wait := wait, edge := edge, pc := pc, result := r } :=
  ⟨hv, fun _ => rfl, rfl, ⟨rfl, rfl⟩, ⟨rfl, rfl⟩, fun _ _ => rfl, fun _ => rfl, ⟨rfl, rfl, rfl⟩⟩

/-- Settles O47: the wait begins with no edge latched, and `PC` is not written. -/
theorem ldVxKBeginsWait : Obligations.LdVxKBeginsWait := fun x _ =>
  ⟨decodeEncodeEveryInstr (.ldVxK x), _, rfl, rfl, rfl, rfl, rfl,
    onlyWaitAndRegs_of_regsKept (fun _ _ => rfl) _ _ _ _⟩

/-- Settles O48: the cycle is a poll, which stores the latched key code, or with no edge only answers. -/
theorem pollCompletesOnEdge : Obligations.PollCompletesOnEdge := by
  intro x s hw
  refine ⟨fun k he => ?_, runCycle_waiting_noEdge hw⟩
  have hreg : ((s.setReg x (k.zeroExtend 8)).reg x).toNat = k.toNat := by
    rw [reg_setReg_same]
    exact BitVec.toNat_setWidth_of_le (by decide)
  exact ⟨_, (runCycle_waiting hw).trans (keyWaitPoll_edge he), hreg, rfl, rfl, rfl, rfl,
    onlyWaitAndRegs_of_regsKept (regsKept_setReg _ List.mem_cons_self) _ _ _ _⟩

end Sys2Proof.Machine
end

section
/-! SUPPORT. The conditions (60_exceptions.md R94 to R97): every instruction, cycle and command answers a next state, and a cycle
that returns a condition has raised it and done nothing else. -/

namespace Sys2Proof.Machine

variable {s t u : State} {c : Result}

/-! ### Every step answers (60_exceptions.md R97) -/

theorem exec_answers (i : Instr) (s : State) : ∃ t, exec i s = .next t := by
  obtain ⟨u, p, r, -, h⟩ := exec_hasEffect i s
  exact ⟨_, h⟩

theorem fetchDecodeExecute_answers (s : State) : ∃ t, fetchDecodeExecute s = .next t := by
  obtain ⟨c, -, h⟩ | ⟨w, -, -, -, h⟩ | ⟨-, i, -, -, h⟩ := fetchDecodeExecute_cases s
  · exact ⟨_, h.trans (raise_eq c s)⟩
  · exact ⟨_, h.trans (raise_eq (.unknownOpcode s.pc w) s)⟩
  · exact h ▸ exec_answers i s

theorem keyWaitPoll_answers (x : Reg) (s : State) : ∃ t, keyWaitPoll x s = .next t := by
  cases he : s.edge with
  | some k => exact ⟨_, keyWaitPoll_edge he⟩
  | none => exact ⟨_, keyWaitPoll_noEdge he⟩

theorem runCycle_answers (s : State) : ∃ t, runCycle s = .next t := by
  cases hw : s.wait with
  | some x => exact runCycle_waiting hw ▸ keyWaitPoll_answers x s
  | none => exact runCycle_running hw ▸ fetchDecodeExecute_answers s

theorem perform_answers (c : Command) (s : State) : ∃ t, perform c s = .next t := by
  cases c with
  | cycle r => exact runCycle_answers { s with draw := r }
  | reset | load _ | tick | setKey _ _ => exact ⟨_, rfl⟩

/-- Settles O10: every instruction has an effect, and a step performs a command, which is total or a cycle. -/
theorem everyStepAnswers : Obligations.EveryStepAnswers :=
  ⟨exec_answers, fun s => perform_answers (takeCommand s).1 (takeCommand s).2⟩

/-! ### Conditions are precise (60_exceptions.md R95) -/

theorem jumpTo_safe {target : Word} (h : jumpTo target u = .next t) : t.Safe := by
  cases h
  rintro c ⟨⟩
  rfl

/-- A state reached by raising a condition and returning `c` is the one before with the next `PC` and `c`. -/
theorem eq_of_raise {c' : Result} (h : raise c' s = .next t) (hr : t.result = some c) :
    t = { s with pc := s.pc + 2, result := some c } := by
  cases h
  rw [← hr]

/-- Of the ways an instruction ends, only raising a condition returns one. -/
theorem Ends.eq_of_condition {p : Word} (h : Ends s p (.next t)) (hr : t.result = some c) (hc : c.isCondition = true) :
    t = { s with pc := s.pc + 2, result := some c } := by
  generalize ho : Host.Outcome.next t = o at h
  cases h with
  | jump target u => exact absurd hc (Bool.eq_false_iff.mp (jumpTo_safe ho.symm c hr))
  | raised c' => exact eq_of_raise ho.symm hr
  | await x =>
    cases ho
    cases hr
    cases hc

/-- Settles O11: a poll returns no condition, and a condition of the fetch, the decoder or an instruction is raised. -/
theorem conditionsArePrecise : Obligations.ConditionsArePrecise := by
  intro s t c h hr hc
  obtain ⟨x, k, -, -, rfl⟩ | ⟨-, -, rfl⟩ | ⟨-, c', hraise⟩ | ⟨-, i, hexec⟩ := runCycle_cases h
  · cases hr
    cases hc
  · cases hr
    cases hc
  · exact eq_of_raise hraise hr
  · exact (hexec ▸ exec_ends i s).eq_of_condition hr hc

/-! ### The conditions an instruction raises (60_exceptions.md R94, R96) -/

/-- An outcome that is a condition if `P` holds, and a jump if not, returns a condition only if `P` holds. -/
theorem condition_of_test {P : Prop} {o : Host.Outcome State Fault Refusal} {c' : Result} (hout : P → o = raise c' s)
    (hin : ¬P → ∃ target u, o = jumpTo target u) (h : o = .next t) (hr : t.result = some c)
    (hc : c.isCondition = true) : P ∧ c = c' := by
  by_cases hP : P
  · refine ⟨hP, ?_⟩
    cases (hout hP).symm.trans h
    exact (Option.some.inj hr).symm
  · obtain ⟨target, u, ho⟩ := hin hP
    exact absurd hc (Bool.eq_false_iff.mp (jumpTo_safe (ho.symm.trans h) c hr))

/-- Settles O12: six instructions make a test and raise its condition where it holds; the others return `Ok` or `Awaiting`. -/
theorem conditionsByInstr : Obligations.ConditionsByInstr := by
  intro i s t c h hr hc
  cases i with
  | ret =>
    have hcause := condition_of_test exec_ret_empty
      (fun live => ⟨_, _, exec_ret_live (Nat.pos_of_ne_zero live)⟩) h hr hc
    exact .inl ⟨rfl, hcause⟩
  | callNnn nnn =>
    have hcause := condition_of_test (exec_call_full nnn)
      (fun room => ⟨_, _, exec_call_room nnn (by omega)⟩) h hr hc
    exact .inr (.inl ⟨⟨nnn, rfl⟩, hcause⟩)
  | drwVxVyN x y n =>
    obtain ⟨hbounds, hrecord⟩ := condition_of_test (exec_drw_out x y n)
      (fun inside => ⟨_, _, exec_drw_in x y n inside⟩) h hr hc
    exact .inr (.inr (.inl ⟨⟨x, y, n, rfl, hbounds⟩, hrecord⟩))
  | ldBVx x =>
    have hcause := condition_of_test (exec_ldBVx_out x)
      (fun inside => ⟨_, _, exec_ldBVx_in x (by omega)⟩) h hr hc
    exact .inr (.inr (.inr (.inl ⟨⟨x, rfl⟩, hcause⟩)))
  | ldMemVx x =>
    obtain ⟨hbounds, hrecord⟩ := condition_of_test (exec_ldMemVx_out x)
      (fun inside => ⟨_, _, exec_ldMemVx_in x (by omega)⟩) h hr hc
    exact .inr (.inr (.inr (.inr ⟨⟨x, .inl rfl, hbounds⟩, hrecord⟩)))
  | ldVxMem x =>
    obtain ⟨hbounds, hrecord⟩ := condition_of_test (exec_ldVxMem_out x)
      (fun inside => ⟨_, _, exec_ldVxMem_in x (by omega)⟩) h hr hc
    exact .inr (.inr (.inr (.inr ⟨⟨x, .inr rfl, hbounds⟩, hrecord⟩)))
  | _ =>
    cases h
    cases hr
    cases hc

end Sys2Proof.Machine
end

section
/-! SUPPORT. The commands that advance time and report keys (60_exceptions.md R100, R104), and the two that end a key-wait
(R109). -/

namespace Sys2Proof.Machine

variable {s : State}

/-! ### The end of a key-wait (60_exceptions.md R109) -/

theorem commandLoad_wait (image : List Byte) (s : State) : (commandLoad image s).wait = s.wait := by
  by_cases long : Config.maxImage < image.length
  · rw [commandLoad_long long]
  · rw [commandLoad_fits long, State.writeBlock_wait]

/-- Settles O49: of the other commands only a cycle writes `WAIT`, and the poll it is writes it only with an edge latched. -/
theorem waitEndsByPressOrReset : Obligations.WaitEndsByPressOrReset := by
  intro c s t x hw h hleft
  cases c with
  | reset => exact .inl rfl
  | load image =>
    cases h
    exact absurd ((commandLoad_wait image s).trans hw) hleft
  | tick | setKey _ _ =>
    cases h
    exact absurd hw hleft
  | cycle r =>
    have h : runCycle { s with draw := r } = .next t := h
    obtain ⟨hpress, hnone⟩ := pollCompletesOnEdge x { s with draw := r } hw
    cases he : s.edge with
    | none =>
      cases h.symm.trans (hnone he)
      exact absurd hw hleft
    | some k =>
      obtain ⟨t', ht', hreg, -⟩ := hpress k he
      cases h.symm.trans ht'
      exact .inr ⟨⟨r, rfl⟩, k, rfl, hreg⟩

/-! ### `TICK` (60_exceptions.md R100) -/

theorem toNat_tickTimer (b : Byte) : (tickTimer b).toNat = b.toNat - 1 := by
  by_cases hb : b = 0
  · subst hb
    rfl
  · rw [tickTimer, if_pos (bne_iff_ne.mpr hb)]
    bv_omega

theorem toNat_commandTick_dt (s : State) : (commandTick s).dt.toNat = s.dt.toNat - 1 := toNat_tickTimer s.dt

theorem toNat_commandTick_st (s : State) : (commandTick s).st.toNat = s.st.toNat - 1 := toNat_tickTimer s.st

/-- Settles O51: each timer is ticked, and the tone is read off `ST` before. -/
theorem tickDecrementsTimers : Obligations.TickDecrementsTimers := by
  intro s
  have htone : (commandTick s).result = some (.tone (decide (s.st ≠ 0))) :=
    congrArg (some ∘ Result.tone) (Bool.eq_iff_iff.mpr (bne_iff_ne.trans decide_eq_true_iff.symm))
  exact ⟨commandTick s, rfl, toNat_commandTick_dt s, toNat_commandTick_st s, htone, rfl,
    onlyTimers_of_timers s _ _ _ _⟩

/-- Settles O52, by induction on the number of ticks. -/
theorem ticksSaturateAtZero : Obligations.TicksSaturateAtZero := by
  intro n
  induction n with
  | zero => exact fun s => ⟨rfl, rfl⟩
  | succ n ih =>
    intro s
    obtain ⟨hdt, hst⟩ := ih (commandTick s)
    rw [Function.iterate_succ_apply, hdt, hst, toNat_commandTick_dt, toNat_commandTick_st]
    exact ⟨by omega, by omega⟩

/-! ### `SET_KEY` (60_exceptions.md R104) -/

theorem keyPressed_commandSetKey_same (k : Key) (p : Bool) (s : State) : (commandSetKey k p s).keyPressed k = p :=
  Vector.getElem_set_self k.isLt

theorem keyPressed_commandSetKey_ne {k j : Key} (p : Bool) (s : State) (h : j ≠ k) :
    (commandSetKey k p s).keyPressed j = s.keyPressed j :=
  Vector.getElem_set_ne k.isLt j.isLt fun e => h (BitVec.eq_of_toNat_eq e.symm)

theorem freshEdge_iff (k : Key) (p : Bool) (s : State) :
    s.freshEdge k p = true ↔ p = true ∧ s.keyPressed k = false ∧ s.wait ≠ none ∧ s.edge = none := by
  simp [State.freshEdge, Option.isSome_iff_ne_none, and_assoc]

/-- Settles O53: the key's latch bit is set alone, and the edge is latched if it is a fresh one. -/
theorem setKeyLatchesFirstEdge : Obligations.SetKeyLatchesFirstEdge := fun k p s =>
  ⟨commandSetKey k p s, rfl, keyPressed_commandSetKey_same k p s, fun _ => keyPressed_commandSetKey_ne p s,
    if_congr (freshEdge_iff k p s) rfl rfl, rfl, rfl, rfl,
    fun _ _ => rfl, fun _ => rfl, rfl, ⟨rfl, rfl⟩, ⟨rfl, rfl⟩, fun _ _ => rfl, ⟨rfl, rfl, rfl⟩⟩

end Sys2Proof.Machine
end

section
/-! SUPPORT. `RESET`, the state at construction, and `LOAD` (70_reset_and_hazards.md R111 to R113): what the reset memory reads
as, and a load as the stores of one block. -/

namespace Sys2Proof.Machine

/-! ### What the reset memory reads as (10_state.md R28) -/

/-- The font's bytes, glyph by glyph: the 80 bytes of the model are the table of R13. -/
theorem resetByte_glyph : ∀ d < 16, ∀ k < 5, some (resetByte (0x050 + 5 * d + k)) = (glyphTable[d]?).bind (·[k]?) := by
  decide

theorem resetByte_outside_font {a : Nat} (h : a < 0x050 ∨ 0x0A0 ≤ a) : resetByte a = 0 := by
  obtain below | above := h
  · exact if_neg (Nat.not_le.mpr below)
  · have hlen : font.length = 0x050 := rfl
    have hbase : fontBase = 0x050 := rfl
    rw [resetByte, List.getD_eq_default _ _ (by omega), ite_self]

theorem memRead_commandReset (s : State) {a : Nat} (ha : a < 0x1000) : (commandReset s).memRead a = some (resetByte a) :=
  memRead_of_lt _ ha

/-! ### `RESET` and construction (R111, R112) -/

/-- Settles O54: memory reads as its reset contents, every other element is set outright, and `KEYS` and the ports are kept. -/
theorem resetCommandSetsEveryElement : Obligations.ResetCommandSetsEveryElement := by
  intro s
  have hglyph : ∀ d k, d < 16 → k < 5 →
      (commandReset s).memRead (0x050 + 5 * d + k) = (glyphTable[d]?).bind (·[k]?) := fun d k hd hk =>
    (memRead_commandReset s (by omega)).trans (resetByte_glyph d hd k hk)
  have hzero : ∀ a, a < 0x1000 → (a < 0x050 ∨ 0x0A0 ≤ a) → (commandReset s).memRead a = some 0 := fun a ha hout =>
    (memRead_commandReset s ha).trans (congrArg some (resetByte_outside_font hout))
  have hreg : ∀ z, (commandReset s).reg z = 0 := fun z => Vector.getElem_replicate z.isLt
  have hstack : ∀ j, j < 16 → (commandReset s).stack[j]? = some 0 := fun j hj => Vector.getElem?_replicate_of_lt hj
  have hlit : ∀ row col, (commandReset s).lit row col = false := pixel_clearFrame
  exact ⟨commandReset s, rfl, hglyph, hzero, hreg, rfl, rfl, hstack, rfl, rfl, rfl, hlit, rfl, rfl, rfl,
    fun _ => rfl, rfl, rfl, rfl⟩

/-- Settles O55: construction has every key released, and `RESET` sets nothing that it does not hold already. -/
theorem constructionIsResetState : Obligations.ConstructionIsResetState :=
  ⟨fun k => Vector.getElem_replicate k.isLt, rfl⟩

/-! ### `LOAD` (R113) -/

theorem perform_load_fits {image : List Byte} (h : image.length ≤ 3584) (s : State) :
    perform (.load image) s = .next { s.writeBlock 0x200 image with result := some .ok } :=
  congrArg Host.Outcome.next (commandLoad_fits (Nat.not_lt.mpr h) s)

theorem perform_load_long {image : List Byte} (h : ¬image.length ≤ 3584) (s : State) :
    perform (.load image) s = .next { s with result := some (.imageTooLarge image.length) } :=
  congrArg Host.Outcome.next (commandLoad_long (Nat.not_le.mp h) s)

/-- Settles O56: an image that fits is one block of stores that ends within the array, and a longer one is only answered. -/
theorem loadCopiesImageOrRefuses : Obligations.LoadCopiesImageOrRefuses := by
  intro image s hm
  split
  · next hfits =>
    have hin : 0x200 + image.length ≤ 0x1000 := Nat.add_le_add_left hfits 0x200
    exact ⟨_, perform_load_fits hfits s, fun _ hk => memRead_writeBlock hm hin hk, rfl, rfl,
      onlyStores_writeBlock hm _ _ _ _⟩
  · next hlong => exact perform_load_long hlong s

end Sys2Proof.Machine
end
